-- ==== Sys2Proof/Word.lean ====
section
/-! DEFINITION. The words of FS3000-CORE: bytes, the 48-bit command word, the 12-bit raw sample, the binary32
pattern, the 5-byte frame and the profile selector (00_scope.md R8, R9, R11; 20_memory.md R65; 10_state.md R34). -/

namespace Sys2Proof

/-- A byte is 8 bits (R9). -/
abbrev Byte := BitVec 8

/-- The command word `W[47:0]` (R90). -/
abbrev Word48 := BitVec 48

/-- The 12-bit unsigned raw sample (`RAW_WIDTH = 12`, R8, R170). -/
abbrev Raw := BitVec 12

/-- A binary32 value, held as its IEEE 754 bit pattern: sign bit 31, biased exponent 30:23, fraction 22:0 (R11, R67). -/
abbrev F32 := BitVec 32

/-- The five frame bytes `[checksum, rawHigh, rawLow, aux0, aux1]` in bus order (R65). -/
structure Frame where
  f0 : Byte
  f1 : Byte
  f2 : Byte
  f3 : Byte
  f4 : Byte
deriving DecidableEq, Repr

/-- The profile selector: `SEVEN_MPS` (profile 0) or `FIFTEEN_MPS` (profile 1) (R34, R61). -/
inductive Profile where
  | sevenMps
  | fifteenMps
deriving DecidableEq, Repr

/-- The 1-bit encoding of the selector: 0 is `SEVEN_MPS`, 1 is `FIFTEEN_MPS` (R34). -/
def Profile.bit : Profile → BitVec 1
  | .sevenMps => 0#1
  | .fifteenMps => 1#1

/-- The profile a selector bit names (R34). -/
def Profile.ofBit (b : BitVec 1) : Profile :=
  if b = 0#1 then .sevenMps else .fifteenMps

/-- `n_p`: 9 points for profile 0, 13 for profile 1 (R61). -/
def Profile.size : Profile → Nat
  | .sevenMps => 9
  | .fifteenMps => 13

/-- The bits of the ceiling `vel_p[n_p - 1]`: `rne32(7.23)` and `rne32(15.00)` (R7). -/
def Profile.ceiling : Profile → F32
  | .sevenMps => 0x40E75C29#32
  | .fifteenMps => 0x41700000#32

end Sys2Proof
end

