-- ==== Sys2Proof/Machine/Operands.lean ====
section
/-! DEFINITION. Fields and operand forms of the command word, and byte orders (30_encoding.md R90 to R96; 20_memory.md R65, R67). -/

namespace Sys2Proof.Machine

/-- `OP = W[47:44]` (R91). -/
def opField (w : Word48) : BitVec 4 := w.extractLsb' 44 4

/-- `M = W[43:40]` (R91). -/
def modField (w : Word48) : BitVec 4 := w.extractLsb' 40 4

/-- Format S: `M[0]` is the profile (R96). -/
def operandS (w : Word48) : Profile := Profile.ofBit (w.extractLsb' 40 1)

/-- Format F: `frame[k] = O[39-8k : 32-8k]` (R93). -/
def operandF (w : Word48) : Frame where
  f0 := w.extractLsb' 32 8
  f1 := w.extractLsb' 24 8
  f2 := w.extractLsb' 16 8
  f3 := w.extractLsb' 8 8
  f4 := w.extractLsb' 0 8

/-- Format R: `raw = O[35:24]` (R94). -/
def operandR (w : Word48) : Raw := w.extractLsb' 24 12

/-- Format V: `v = O[39:8]` (R95). -/
def operandV (w : Word48) : F32 := w.extractLsb' 8 32

/-- A command word as the bytes it is written in: byte 0 is `W[47:40]`, byte 5 is `W[7:0]` (R90). -/
def wordBytes (w : Word48) : List Byte :=
  [w.extractLsb' 40 8, w.extractLsb' 32 8, w.extractLsb' 24 8, w.extractLsb' 16 8, w.extractLsb' 8 8, w.extractLsb' 0 8]

/-- The command word that six bytes write, most significant first; `none` for another count of bytes (R90, R101). -/
def wordOfBytes : List Byte → Option Word48
  | [b0, b1, b2, b3, b4, b5] => some (b0 ++ b1 ++ b2 ++ b3 ++ b4 ++ b5)
  | _ => none

/-- The 32-bit `value` field of a result as bytes: big-endian (R67). -/
def valueBytes (v : F32) : List Byte :=
  [v.extractLsb' 24 8, v.extractLsb' 16 8, v.extractLsb' 8 8, v.extractLsb' 0 8]

/-- The five bytes of one bus answer as a frame, `frame[0]` first on the bus (R65); `none` unless there are exactly five. -/
def frameOfBytes : List Byte → Option Frame
  | [b0, b1, b2, b3, b4] => some ⟨b0, b1, b2, b3, b4⟩
  | _ => none

end Sys2Proof.Machine
end

