-- ==== Sys2Proof/Syntax.lean ====
section
/-! DEFINITION. The commands of FS3000-CORE: one constructor per row of the opcode map (30_encoding.md R97). -/

namespace Sys2Proof

/-- A command. Each operand field has exactly the width its format gives it (R92 to R96). -/
inductive Instr where
  /-- NOP (R251). -/
  | nop
  /-- PROBE (R133). -/
  | probe
  /-- SETRANGE p (R210). -/
  | setrange (p : Profile)
  /-- VALIDATE f0, f1, f2, f3, f4 (R151). -/
  | validate (f : Frame)
  /-- DECODE f0, f1, f2, f3, f4 (R171). -/
  | decode (f : Frame)
  /-- INTERP raw (R211). -/
  | interp (raw : Raw)
  /-- TOMPH v (R212). -/
  | tomph (v : F32)
  /-- READRAW (R241). -/
  | readraw
  /-- READMPS (R242). -/
  | readmps
  /-- READMPH (R243). -/
  | readmph
  /-- GETSTATE (R250). -/
  | getstate
deriving DecidableEq, Repr

end Sys2Proof
end

