-- ==== Sys2Proof/WellFormed.lean ====
section
/-! DEFINITION. Well-formed commands and operands (30_encoding.md R92 to R96, R102). -/

namespace Sys2Proof

/-- Every term of `Instr` is well-formed: each operand is typed at the width of its field, so no operand is out of the
range its encoding admits (R93: no bit of a frame is reserved; R94: every raw value in `[0, 4095]`; R95: any bit pattern). -/
def Instr.wellFormed : Instr → Bool
  | .nop => true
  | .probe => true
  | .setrange _ => true
  | .validate _ => true
  | .decode _ => true
  | .interp _ => true
  | .tomph _ => true
  | .readraw => true
  | .readmps => true
  | .readmph => true
  | .getstate => true

/-- A written frame byte is in `[0, 255]` (R102). -/
def byteInRange (n : Nat) : Bool := decide (n ≤ 255)

/-- A written raw operand is in `[0, 4095]` (R102). -/
def rawInRange (n : Nat) : Bool := decide (n ≤ 4095)

/-- A written bit pattern has at most 32 bits (R102). -/
def patternInRange (n : Nat) : Bool := decide (n < 2 ^ 32)

end Sys2Proof
end

