-- ==== Sys2Proof/Decode.lean ====
section
/-! DEFINITION. The decoder and the encoder (30_encoding.md R90 to R101).
The decoder is R97 itself: a word is the command of a row iff `(W & mask) == match`. It reads nothing but the word (R98). -/

namespace Sys2Proof

/-- A row of the opcode map (R97). `build` reads the operands of the row's format. -/
structure Row where
  mnemonic : String
  pattern : Word48
  mask : Word48
  build : Word48 → Instr

/-- `(W & mask) == match` (R97). -/
def Row.accepts (r : Row) (w : Word48) : Bool := w &&& r.mask == r.pattern

/-- The rows without a frame, raw or value operand: formats Z and S (R97). -/
def rowsZS : List Row :=
  [⟨"NOP",      0x000000000000#48, 0xFFFFFFFFFFFF#48, fun _ => .nop⟩,
   ⟨"PROBE",    0x100000000000#48, 0xFFFFFFFFFFFF#48, fun _ => .probe⟩,
   ⟨"SETRANGE", 0x200000000000#48, 0xFEFFFFFFFFFF#48, fun w => .setrange (Machine.operandS w)⟩,
   ⟨"READRAW",  0x700000000000#48, 0xFFFFFFFFFFFF#48, fun _ => .readraw⟩,
   ⟨"READMPS",  0x710000000000#48, 0xFFFFFFFFFFFF#48, fun _ => .readmps⟩,
   ⟨"READMPH",  0x720000000000#48, 0xFFFFFFFFFFFF#48, fun _ => .readmph⟩,
   ⟨"GETSTATE", 0x800000000000#48, 0xFFFFFFFFFFFF#48, fun _ => .getstate⟩]

/-- The rows with a frame, raw or value operand: formats F, R and V (R97). -/
def rowsFRV : List Row :=
  [⟨"VALIDATE", 0x300000000000#48, 0xFF0000000000#48, fun w => .validate (Machine.operandF w)⟩,
   ⟨"DECODE",   0x400000000000#48, 0xFF0000000000#48, fun w => .decode (Machine.operandF w)⟩,
   ⟨"INTERP",   0x500000000000#48, 0xFFF000FFFFFF#48, fun w => .interp (Machine.operandR w)⟩,
   ⟨"TOMPH",    0x600000000000#48, 0xFF00000000FF#48, fun w => .tomph (Machine.operandV w)⟩]

/-- The complete opcode map (R97). -/
def opcodeMap : List Row := rowsZS ++ rowsFRV

/-- Why a word, or a sequence of bytes, is no command: the cases of R99, all of which are `ILLEGAL`, and a length other than 48 bits (R101). -/
inductive DecodeError where
  /-- `OP` in `0x9..0xF`. -/
  | unassignedOpcode
  /-- `OP = 0x7` with `M` in `3..15`. -/
  | unassignedVariant
  /-- A nonzero `M` where `M` must be zero (for SETRANGE, `M[3:1]`). -/
  | nonzeroModifier
  /-- A nonzero bit where the format has a reserved `0`. -/
  | reservedBit
  /-- Not six bytes. -/
  | wrongLength
deriving DecidableEq, Repr

/-- Which case of R99 a word that matches no row falls under; the first in this order. -/
def rejection (w : Word48) : DecodeError :=
  if 9#4 ≤ Machine.opField w then .unassignedOpcode
  else if Machine.opField w = 7#4 then
    if 3#4 ≤ Machine.modField w then .unassignedVariant else .reservedBit
  else if Machine.modField w = 0#4 then .reservedBit
  else if Machine.opField w = 2#4 ∧ Machine.modField w = 1#4 then .reservedBit
  else .nonzeroModifier

/-- The command of the first row that accepts the word. -/
def decodeRows (w : Word48) : List Row → Except DecodeError Instr
  | [] => .error (rejection w)
  | r :: rs => if r.accepts w then .ok (r.build w) else decodeRows w rs

/-- Decoding, total on every 48-bit word (R98). -/
def decode (w : Word48) : Except DecodeError Instr := decodeRows w opcodeMap

/-- Decoding a written word, total on every sequence of bytes (R90). -/
def decodeBytes (bs : List Byte) : Except DecodeError Instr :=
  match Machine.wordOfBytes bs with
  | some w => decode w
  | none => .error .wrongLength

/-- `{f0, f1, f2, f3, f4}`, the 40 operand bits of format F (R92). -/
def frameField (f : Frame) : BitVec 40 := f.f0 ++ f.f1 ++ f.f2 ++ f.f3 ++ f.f4

/-- The word of a command, from the formats of R92 and the opcodes of R97. -/
def encode : Instr → Word48
  | .nop => 0x0#4 ++ 0x0#4 ++ 0#40
  | .probe => 0x1#4 ++ 0x0#4 ++ 0#40
  | .setrange p => 0x2#4 ++ 0#3 ++ p.bit ++ 0#40
  | .validate f => 0x3#4 ++ 0x0#4 ++ frameField f
  | .decode f => 0x4#4 ++ 0x0#4 ++ frameField f
  | .interp raw => 0x5#4 ++ 0x0#4 ++ 0#4 ++ raw ++ 0#24
  | .tomph v => 0x6#4 ++ 0x0#4 ++ v ++ 0#8
  | .readraw => 0x7#4 ++ 0x0#4 ++ 0#40
  | .readmps => 0x7#4 ++ 0x1#4 ++ 0#40
  | .readmph => 0x7#4 ++ 0x2#4 ++ 0#40
  | .getstate => 0x8#4 ++ 0x0#4 ++ 0#40

/-- The command word that the opcode table's numbering calls `w` (its bit 0 is `W[0]`, R90), of which `nbits` bits are
given and the rest are 0; `none` if bits above the 48 of a command word are set (log entry 15). -/
def tableWord (nbits w : Nat) : Option Word48 :=
  if w % 2 ^ nbits < 2 ^ 48 then some (BitVec.ofNat 48 (w % 2 ^ nbits)) else none

/-- The instruction the decoder reads from a word numbered as the opcode table numbers it: the word is laid out as its six
bytes, most significant first (R90), and decoded from them. -/
def decodeTableWord (nbits w : Nat) : Option Instr :=
  match tableWord nbits w with
  | some word => (decodeBytes (Machine.wordBytes word)).toOption
  | none => none

end Sys2Proof
end

