-- ==== Sys2Proof/Machine/Float.lean ====
section
/-! DEFINITION. The floating-point primitives of 00_scope.md R11: one rounding function on exact quotients, and the
binary32 operations as "compute exactly, then round once".

A finite value of a binary format is a whole number of UNITS, a unit being its smallest subnormal (2^-149 in binary32,
2^-1074 in binary64); so every exact result is a quotient of two naturals counted in units, and a sign.
The operations are the IEEE 754 ones on finite operands, which is all R11 defines; log entry 12 says why no command
reaches another operand. Log entry 9: IEEE 754 itself is general knowledge by the spec's own mark (I21). -/

namespace Sys2Proof.Machine

/-- A binary interchange format, by its field widths. -/
structure FloatFormat where
  fracBits : Nat
  expBits : Nat
deriving DecidableEq, Repr

/-- binary32: fraction 22:0, biased exponent 30:23 (R11). -/
def binary32 : FloatFormat := ⟨23, 8⟩

/-- binary64, which only `MPH_PRECISION = binary64` uses (R197). -/
def binary64 : FloatFormat := ⟨52, 11⟩

/-- The magnitude pattern (all bits but the sign) of infinity: exponent field all ones, fraction 0. -/
def FloatFormat.infinity (f : FloatFormat) : Nat := (2 ^ f.expBits - 1) * 2 ^ f.fracBits

/-- The value of a finite magnitude pattern, in units of the format. -/
def magUnits (f : FloatFormat) (p : Nat) : Nat :=
  if p / 2 ^ f.fracBits = 0 then p
  else (2 ^ f.fracBits + p % 2 ^ f.fracBits) * 2 ^ (p / 2 ^ f.fracBits - 1)

/-- The whole number nearest to `a / b`, a tie going to the even one. -/
def rneQuotient (a b : Nat) : Nat :=
  if 2 * (a % b) < b then a / b
  else if b < 2 * (a % b) then a / b + 1
  else a / b + a / b % 2

/-- The magnitude pattern of the format's value nearest to `a / b` units, ties to the even fraction, overflowing to
infinity (`rne32` of R11, on magnitudes). `k` is how many binades `a / b` lies above the first normal one, so the
format's values there are `2 ^ k` units apart. Exponent field and fraction are one number, so a carry out of the
fraction moves into the exponent. -/
def roundMag (f : FloatFormat) (a b : Nat) : Nat :=
  let k := Nat.log2 (a / b) - f.fracBits
  min (k * 2 ^ f.fracBits + rneQuotient a (b * 2 ^ k)) f.infinity

/-- One unit of binary32 is 2^-149, so this many units make 1. -/
def one32 : Nat := 2 ^ 149

/-- A binary32 pattern from its sign and magnitude pattern. -/
def pack32 (neg : Bool) (mag : Nat) : F32 := BitVec.ofBool neg ++ BitVec.ofNat 31 mag

/-- The sign bit, `v[31]`. -/
def signBit (v : F32) : Bool := v.getLsbD 31

/-- The magnitude pattern, `v[30:0]`. -/
def magBits (v : F32) : Nat := v.toNat % 2 ^ 31

/-- The biased exponent field, `v[30:23]`. -/
def expField (v : F32) : BitVec 8 := v.extractLsb' 23 8

/-- Neither an infinity nor a NaN: the exponent field is not all ones (R286). -/
def isFinite (v : F32) : Bool := expField v != 0xFF#8

/-- The magnitude of a finite value, in units. -/
def absUnits (v : F32) : Nat := magUnits binary32 (magBits v)

/-- A finite value as a signed number of units; both zeros are 0. -/
def toUnits (v : F32) : Int := if signBit v then -(absUnits v : Int) else (absUnits v : Int)

/-- The binary32 value nearest to `num / den` units. A zero result takes the sign `zeroNeg` when the exact value is zero,
and the exact value's sign otherwise. -/
def roundUnits (zeroNeg : Bool) (num : Int) (den : Nat) : F32 :=
  pack32 (if num = 0 then zeroNeg else decide (num < 0)) (roundMag binary32 num.natAbs den)

/-- `rne32(num / den)` of R11: the binary32 value nearest to the rational number `num / den`; zero gives `+0.0`. -/
def rne32 (num : Int) (den : Nat) : F32 := roundUnits false (num * one32) den

/-- `i2f(n)` (R11). -/
def i2f (n : Int) : F32 := rne32 n 1

/-- `fadd(a,b) = rne32(a+b)` (R11); an exact zero is `-0.0` only when both operands carry the minus sign. -/
def fadd (a b : F32) : F32 := roundUnits (signBit a && signBit b) (toUnits a + toUnits b) 1

/-- `fsub(a,b) = rne32(a-b)` (R11); an exact zero is `-0.0` only for `(-0.0) - (+0.0)`. -/
def fsub (a b : F32) : F32 := roundUnits (signBit a && !signBit b) (toUnits a - toUnits b) 1

/-- `fmul(a,b) = rne32(a*b)` (R11); a zero product takes the product of the signs. -/
def fmul (a b : F32) : F32 := roundUnits (signBit a ^^ signBit b) (toUnits a * toUnits b) one32

/-- `fdiv(a,b) = rne32(a/b)` (R11), for `b` other than zero: the one division of the block has a divisor of at least 1 (R192). -/
def fdiv (a b : F32) : F32 :=
  pack32 (signBit a ^^ signBit b) (roundMag binary32 (absUnits a * one32) (absUnits b))

/-- `fma(a,b,c) = rne32(a*b + c)`, rounding once (R11); an exact zero is `-0.0` only when product and addend carry the minus sign. -/
def fma (a b c : F32) : F32 :=
  roundUnits ((signBit a ^^ signBit b) && signBit c) (toUnits a * toUnits b + toUnits c * one32) one32

end Sys2Proof.Machine
end

