-- ==== Sys2Proof/Config.lean ====
section
/-! DEFINITION. What one instance of the block fixes: the calibration profiles and the parameters of 00_scope.md R6,
with the constraints of R7 built in, so that a table that fails one cannot be part of an instance ("A model rejects any
table that fails one"). Fixed constants: R8. Log entries 7, 9, 10, 11, 18. -/

namespace Sys2Proof

/-- Point `k` of a profile: `raw_p[k]`, held as 12 bits, and `vel_p[k]`, held as 32 bits (R61). -/
structure Point where
  raw : Raw
  vel : F32
deriving DecidableEq, Repr

/-- The constraints of R7 on a table of profile `p`: length, end points, ceiling, raw points strictly increasing,
velocities non-decreasing, finite and non-negative. (A raw point lies in `[0, 4095]` by its type.) -/
def tableOk (p : Profile) (t : List Point) : Bool :=
  t.length == p.size
    && t.head?.map Point.raw == some 409#12
    && t.getLast?.map Point.raw == some 3686#12
    && t.getLast?.map Point.vel == some p.ceiling
    && decide (t.Pairwise fun a b => a.raw < b.raw)
    && decide (t.Pairwise fun a b => Machine.toUnits a.vel ≤ Machine.toUnits b.vel)
    && t.all fun a => Machine.isFinite a.vel && decide (0 ≤ Machine.toUnits a.vel)

/-- The parameter `FMT`. R6 and R11 define one value, binary32 with roundTiesToEven; the spec describes no other (log entry 9). -/
inductive FloatChoice where
  | binary32
deriving DecidableEq, Repr

/-- The parameter `MPH_PRECISION` (R6, R197). -/
inductive MphPrecision where
  | binary32
  | binary64
deriving DecidableEq, Repr

/-- The parameters of one instance (R6). The two proofs are R7: no instance holds a table that fails it. -/
structure Config where
  fmt : FloatChoice
  macFused : Bool
  mphPrecision : MphPrecision
  cal7 : List Point
  cal15 : List Point
  ok7 : tableOk .sevenMps cal7 = true
  ok15 : tableOk .fifteenMps cal15 = true
deriving DecidableEq, Repr

/-- `Profile(RANGE)`: the table a selector names (R190). -/
def Config.table (c : Config) : Profile → List Point
  | .sevenMps => c.cal7
  | .fifteenMps => c.cal15

/-- `DEVICE_ADDR`, the only bus address the core names (R8, R71). -/
def deviceAddr : BitVec 7 := 0x28#7

/-- `FRAME_LEN` (R8). -/
def frameLen : Nat := 5

/-- `MPH_FACTOR`, the bits of `rne32(2.2369362912)` (R8). -/
def mphFactor : F32 := 0x400F29F7#32

/-- The binary64 pattern of the factor, for `MPH_PRECISION = binary64` (R197). -/
def mphFactor64 : Nat := 0x4001E53EDAAF842A

end Sys2Proof
end

