-- ==== Sys2Proof/Machine/Rom.lean ====
section
/-! DEFINITION. The calibration ROM: its default contents and `RomRead` (20_memory.md R61 to R64). -/

namespace Sys2Proof.Machine

/-- The default contents of profile 0 (R62). The interior points are general knowledge by the spec's own mark (I10; log entry 8). -/
def defaultCal7 : List Point :=
  [⟨409#12, 0x00000000#32⟩, ⟨915#12, 0x3F88F5C3#32⟩, ⟨1522#12, 0x4000A3D7#32⟩, ⟨2066#12, 0x40400000#32⟩,
   ⟨2523#12, 0x407E147B#32⟩, ⟨2908#12, 0x409EB852#32⟩, ⟨3256#12, 0x40BF5C29#32⟩, ⟨3572#12, 0x40DFAE14#32⟩,
   ⟨3686#12, 0x40E75C29#32⟩]

/-- The default contents of profile 1 (R63; log entry 8). -/
def defaultCal15 : List Point :=
  [⟨409#12, 0x00000000#32⟩, ⟨1203#12, 0x40000000#32⟩, ⟨1597#12, 0x40400000#32⟩, ⟨1908#12, 0x40800000#32⟩,
   ⟨2187#12, 0x40A00000#32⟩, ⟨2400#12, 0x40C00000#32⟩, ⟨2629#12, 0x40E00000#32⟩, ⟨2801#12, 0x41000000#32⟩,
   ⟨3006#12, 0x41100000#32⟩, ⟨3178#12, 0x41200000#32⟩, ⟨3309#12, 0x41300000#32⟩, ⟨3563#12, 0x41500000#32⟩,
   ⟨3686#12, 0x41700000#32⟩]

/-- The default instance (R6): default tables, unfused MAC, binary32 mph multiply. -/
def defaultConfig : Config where
  fmt := .binary32
  macFused := false
  mphPrecision := .binary32
  cal7 := defaultCal7
  cal15 := defaultCal15
  ok7 := by decide
  ok15 := by decide

/-- `RomRead(p, k)`: point `k` of profile `p`; `none` outside `0 <= k < n_p` (R64). -/
def romRead (c : Config) (p : Profile) (k : Nat) : Option Point := (c.table p)[k]?

end Sys2Proof.Machine
end

