-- ==== Sys2Proof/Machine/Convert.lean ====
section
/-! DEFINITION. The datapath units: checksum validator (41_validator.md R150), raw-sample extractor (42_extract.md R170),
interpolation engine and unit converter (43_conversion.md R191, R197). -/

namespace Sys2Proof.Machine

/-- What the validator computes (R150); `calculated` is its `calc`. -/
structure Check where
  valid : Bool
  sum : Byte
  calculated : Byte
  overall : Byte
deriving DecidableEq, Repr

/-- `Checksum(f0, f1, f2, f3, f4)` (R150). Eight-bit addition and negation wrap modulo 256. -/
def checksum (f : Frame) : Check :=
  let sum := f.f1 + f.f2 + f.f3 + f.f4
  let overall := sum + f.f0
  { valid := overall == 0#8, sum := sum, calculated := 0#8 - sum, overall := overall }

/-- `Extract(f1, f2)`: `raw[11:8] = f1[3:0]`, `raw[7:0] = f2` (R170). -/
def extract (f1 f2 : Byte) : Raw :=
  ((f1 &&& 0x0F#8).setWidth 12 <<< 8) ||| f2.setWidth 12

/-- Step 3 of R191: an ascending scan in which every point `k` with `raw > R[k]` overwrites `i`. -/
def scanFrom (raw : Raw) : List Point → Nat → Nat → Nat
  | [], _, i => i
  | p :: ps, k, i => scanFrom raw ps (k + 1) (if p.raw < raw then k else i)

/-- The lower bracketing index of R191, step 3, on table `t`. -/
def bracket (raw : Raw) (t : List Point) : Nat := scanFrom raw t 0 0

/-- Step 4 of R191 on the bracket `(lo, hi)`: both differences promoted before the division (R195), and the
multiply-accumulate rounded once or twice as `MAC_FUSED` says. -/
def interpolate (c : Config) (raw : Raw) (lo hi : Point) : F32 :=
  match c.fmt with
  | .binary32 =>
    let num := i2f ((raw.toNat : Int) - lo.raw.toNat)
    let den := i2f ((hi.raw.toNat : Int) - lo.raw.toNat)
    let t := fdiv num den
    let d := fsub hi.vel lo.vel
    if c.macFused then fma t d lo.vel else fadd lo.vel (fmul t d)

/-- `Interp(raw, p)` (R191); `none` iff it reads the ROM outside its domain, which never happens (R192, R64). -/
def interp (c : Config) (p : Profile) (raw : Raw) : Option F32 :=
  (romRead c p 0).bind fun first =>
  (romRead c p (p.size - 1)).bind fun last =>
  if raw ≤ first.raw then some 0#32
  else if last.raw ≤ raw then some last.vel
  else
    (romRead c p (bracket raw (c.table p))).bind fun lo =>
    (romRead c p (bracket raw (c.table p) + 1)).bind fun hi =>
    some (interpolate c raw lo hi)

/-- The mph product in binary64, rounded again to binary32 (R197, second line). A binary64 unit is 2^-1074. -/
def mph64 (v : F32) : F32 :=
  let product := roundMag binary64 (absUnits v * magUnits binary64 mphFactor64) one32
  pack32 (signBit v) (roundMag binary32 (magUnits binary64 product) (2 ^ (1074 - 149)))

/-- `Mph(v)` for a finite `v` (R197): one binary32 multiply, or the alternative in binary64. -/
def mph (c : Config) (v : F32) : F32 :=
  match c.mphPrecision with
  | .binary32 => fmul v mphFactor
  | .binary64 => mph64 v

end Sys2Proof.Machine
end

