-- ==== Sys2Proof/Machine/State.lean ====
section
/-! DEFINITION. The state of one instance of the block, its ports and its result record (10_state.md). Plain data. -/

namespace Sys2Proof.Machine

/-- The status codes (60_exceptions.md R280). Codes 6 and 7 are never produced, so no constructor stands for them (I12). -/
inductive Status where
  | ok
  | noack
  | short
  | notready
  | illegal
  | badop
deriving DecidableEq, Repr

/-- A result record (R44; `calculated` is the field `calc`). A field a command does not produce is absent (R45). -/
structure Result where
  status : Status
  valid : Option Bool := none
  sum : Option Byte := none
  calculated : Option Byte := none
  overall : Option Byte := none
  raw : Option Raw := none
  value : Option F32 := none
  state : Option Byte := none
deriving DecidableEq, Repr

/-- The commands that issue a transport request (R37, R252). -/
inductive BusCmd where
  | probe
  | readRaw
  | readMps
  | readMph
deriving DecidableEq, Repr

/-- A transport request (R41): a zero-length write, or a read of up to `n` bytes. -/
inductive Request where
  | probe (addr : BitVec 7)
  | read (addr : BitVec 7) (n : Nat)
deriving DecidableEq, Repr

/-- The answers to a frame read (R131): not acknowledged, or the bytes the peer supplied. -/
inductive ReadAnswer where
  | noAck
  | data (bytes : List Byte)
deriving DecidableEq, Repr

/-- What the transport may answer (R41): `Ack` or `NoAck` to a probe, `NoAck` or bytes to a read. -/
inductive Answer where
  | probe (ack : Bool)
  | read (r : ReadAnswer)
deriving DecidableEq, Repr

/-- What reaches the core from outside. The list of these in State is the model's own, log entry 1. -/
inductive Input where
  /-- The host presents a command word (R40). -/
  | command (w : Word48)
  /-- The transport answers request number `request`, counted from 0 in the order of issue (R41; the number: log entry 4). -/
  | answer (request : Nat) (a : Answer)
  /-- The reset input is asserted (R43). -/
  | reset
deriving DecidableEq, Repr

/-- `INFLIGHT`: `IDLE`, or `WAIT(cmd, req)` (R37). -/
inductive InFlight where
  | idle
  | wait (cmd : BusCmd) (req : Request)
deriving DecidableEq, Repr

/-- One instance: its parameters and ROM (`cfg`, constants), the four elements of its architectural state (R32), and the
environment's side of its ports (`inputs`, `requests`, `results`; the model's own, log entries 1 and 14). -/
structure State where
  cfg : Config
  ready : Bool
  range : Profile
  lastValid : Bool
  inflight : InFlight
  inputs : List Input
  requests : List Request
  results : List Result
deriving DecidableEq, Repr

/-- Why a step can stop with a fault. -/
inductive Fault where
  /-- A `RomRead` outside its domain (R64: "a model may make an out-of-domain `RomRead` a fault: no run reaches one").
  Raised by INTERP and by the answering step of READMPS and READMPH; safe, and never reached (R192). -/
  | romOutOfDomain
deriving DecidableEq, Repr

/-- Why a step can be refused. -/
inductive Refusal where
  /-- No meaning yet for the named instruction. Raised by an arm of exec alone, and by none of them now; safe. -/
  | notModelled (mnemonic : String)
deriving DecidableEq, Repr

/-- The state right after reset (70_reset_and_hazards.md R320, R321), of the default instance (R6), with nothing
presented, requested or delivered yet. -/
def State.reset : State where
  cfg := defaultConfig
  ready := false
  range := .sevenMps
  lastValid := false
  inflight := .idle
  inputs := []
  requests := []
  results := []

end Sys2Proof.Machine
end

