-- ==== Sys2Proof/Machine/Flags.lean ====
section
/-! DEFINITION. The flag registers: every write to READY, RANGE and LAST_VALID, the STATE byte (10_state.md R33 to R39), the
mode a command needs (44_pipeline.md R252) and the status codes (60_exceptions.md R280). The block has no arithmetic flag (R39). -/

namespace Sys2Proof.Machine

/-- `x[READY] <- v` (R33). -/
def State.setReady (s : State) (v : Bool) : State := { s with ready := v }

/-- `x[RANGE] <- p` (R34). -/
def State.setRange (s : State) (p : Profile) : State := { s with range := p }

/-- `x[LAST_VALID] <- v` (R35). -/
def State.setLastValid (s : State) (v : Bool) : State := { s with lastValid := v }

/-- The `STATE` byte: `{00000, LAST_VALID, RANGE, READY}` (R38, R250). -/
def State.stateByte (s : State) : Byte :=
  0#5 ++ BitVec.ofBool s.lastValid ++ s.range.bit ++ BitVec.ofBool s.ready

/-- The 3-bit code of a status (R280). -/
def Status.code : Status → BitVec 3
  | .ok => 0#3
  | .noack => 1#3
  | .short => 2#3
  | .notready => 3#3
  | .illegal => 4#3
  | .badop => 5#3

end Sys2Proof.Machine
end

