-- ==== Sys2Proof/Machine/Ops.lean ====
section
/-! DEFINITION. The shared operations: results, transport requests, the mode gate, the frame read, the read pipeline, the
answers' delivery rules and reset. The block takes no exception (60_exceptions.md R288): every error is a result that
`State.fail` puts on the result port, and the core goes on. -/

namespace Sys2Proof.Machine

/-- How a step of this machine can end. -/
abbrev Out := Host.Outcome State Fault Refusal

/-- Put one result record on the result port (R42). -/
def State.emit (s : State) (r : Result) : State := { s with results := s.results ++ [r] }

/-- `raise <Status>`: a result with nothing but its status (R45, R280). -/
def State.fail (s : State) (st : Status) : State := s.emit { status := st }

/-- `INFLIGHT <- v` (R37). -/
def State.setInflight (s : State) (v : InFlight) : State := { s with inflight := v }

/-- The request a command issues: always address `0x28`, a read always of 5 bytes (R130, R131). -/
def BusCmd.request : BusCmd → Request
  | .probe => .probe deviceAddr
  | .readRaw => .read deviceAddr frameLen
  | .readMps => .read deviceAddr frameLen
  | .readMph => .read deviceAddr frameLen

/-- Issue the command's one request and wait: `INFLIGHT <- WAIT(cmd, req)` (R41, R132). -/
def State.issue (s : State) (c : BusCmd) : State :=
  { s with inflight := .wait c c.request, requests := s.requests ++ [c.request] }

/-- The mode gate: a command that requires Ready ends with `NOTREADY` while `READY = 0`, with no state element written and
no request issued (R283). -/
def gated (s : State) (k : Out) : Out := if s.ready then k else .next (s.fail .notready)

/-- The result fields the validator produces (R151, R240). -/
def Check.result (c : Check) : Result :=
  { status := .ok, valid := some c.valid, sum := some c.sum, calculated := some c.calculated, overall := some c.overall }

/-- What `ReadFrame` returns (R134). -/
inductive FrameRead where
  | noAck
  | short
  | frame (f : Frame)
deriving DecidableEq, Repr

/-- `ReadFrame()` on the transport's answer (R134). Of more than 5 supplied bytes the transport returns the first 5 (R131). -/
def readFrame : ReadAnswer → FrameRead
  | .noAck => .noAck
  | .data bytes =>
    match frameOfBytes (bytes.take frameLen) with
    | some f => .frame f
    | none => .short

/-- The end of a READ command that received no frame: `LAST_VALID <- 0`, `INFLIGHT <- IDLE`, READY kept (R240, R284, R285). -/
def State.failRead (s : State) (st : Status) : State :=
  ((s.setLastValid false).setInflight .idle).fail st

/-- `ReadPipeline` from the answer on (R240): validate and extract from the same five bytes, write LAST_VALID, go idle, and
let `k` complete the record `READRAW` would give. -/
def readPipeline (a : ReadAnswer) (s : State) (k : Raw → Result → State → Out) : Out :=
  match readFrame a with
  | .noAck => .next (s.failRead .noack)
  | .short => .next (s.failRead .short)
  | .frame f =>
    let raw := extract f.f1 f.f2
    k raw { (checksum f).result with raw := some raw }
      ((s.setLastValid (checksum f).valid).setInflight .idle)

/-- Use `Interp(raw, x[RANGE])` (R190, R191). -/
def withInterp (raw : Raw) (s : State) (k : F32 → Out) : Out :=
  match interp s.cfg s.range raw with
  | some v => k v
  | none => .fault .romOutOfDomain

/-- Whether an answer to request number `n` answers the outstanding request, which is the last one issued (R73, R132, R336;
log entry 4). -/
def State.awaits (s : State) (n : Nat) : Bool :=
  s.inflight != .idle && n + 1 == s.requests.length

/-- The reset event (R320): the four elements at their reset values; no result, the ROM untouched. -/
def State.applyReset (s : State) : State :=
  { s with ready := false, range := .sevenMps, lastValid := false, inflight := .idle }

/-- The first input that a waiting core can take, and the rest: command words are held on the port, which is not ready (R40). -/
def firstNonCommand : List Input → Option (Input × List Input)
  | [] => none
  | .command w :: rest => (firstNonCommand rest).map fun er => (er.1, .command w :: er.2)
  | .answer n a :: rest => some (.answer n a, rest)
  | .reset :: rest => some (.reset, rest)

/-- The next input the core takes: any while idle, no command while it waits (R40). -/
def takeInput (f : InFlight) (ins : List Input) : Option (Input × List Input) :=
  match f, ins with
  | .idle, [] => none
  | .idle, e :: rest => some (e, rest)
  | .wait _ _, ins => firstNonCommand ins

end Sys2Proof.Machine
end

