-- ==== Sys2Proof/Machine/Conversion.lean ====
section
/-! DEFINITION. SETRANGE, INTERP and TOMPH (43_conversion.md R210 to R212). -/

namespace Sys2Proof.Machine

/-- SETRANGE (R210): any mode. -/
def execSetrange (p : Profile) (s : State) : Out := .next ((s.setRange p).emit { status := .ok })

/-- INTERP (R211). -/
def execInterp (raw : Raw) (s : State) : Out :=
  gated s (withInterp raw s fun v => .next (s.emit { status := .ok, value := some v }))

/-- TOMPH (R212): the mode gate before the operand check (R282), which refuses an infinity or a NaN (R286). -/
def execTomph (v : F32) (s : State) : Out :=
  gated s
    (if isFinite v then .next (s.emit { status := .ok, value := some (mph s.cfg v) })
     else .next (s.fail .badop))

end Sys2Proof.Machine
end

