-- ==== Sys2Proof/Machine/Extractor.lean ====
section
/-! DEFINITION. DECODE (42_extract.md R171). -/

namespace Sys2Proof.Machine

/-- DECODE (R171). It neither validates nor writes LAST_VALID (R172). -/
def execDecode (f : Frame) (s : State) : Out :=
  gated s (.next (s.emit { status := .ok, raw := some (extract f.f1 f.f2) }))

end Sys2Proof.Machine
end

