-- ==== Sys2Proof/Machine/Reads.lean ====
section
/-! DEFINITION. READRAW, READMPS and READMPH (44_pipeline.md R240 to R244): the accepting step of each, which issues the frame
read once the mode gate is passed (40_transport.md R136), and the step that consumes the answer (R132). -/

namespace Sys2Proof.Machine

/-- READRAW (R241), up to its request. -/
def execReadraw (s : State) : Out := gated s (.next (s.issue .readRaw))

/-- READMPS (R242), up to its request. -/
def execReadmps (s : State) : Out := gated s (.next (s.issue .readMps))

/-- READMPH (R243), up to its request. -/
def execReadmph (s : State) : Out := gated s (.next (s.issue .readMph))

/-- READRAW (R241), from the transport's answer on. -/
def finishReadraw (a : ReadAnswer) (s : State) : Out :=
  readPipeline a s fun _ r t => .next (t.emit r)

/-- READMPS (R242), from the transport's answer on: the value in m/s, valid frame or not (R244). -/
def finishReadmps (a : ReadAnswer) (s : State) : Out :=
  readPipeline a s fun raw r t => withInterp raw t fun v => .next (t.emit { r with value := some v })

/-- READMPH (R243), from the transport's answer on: the value in mph; the m/s value is not returned. -/
def finishReadmph (a : ReadAnswer) (s : State) : Out :=
  readPipeline a s fun raw r t => withInterp raw t fun v => .next (t.emit { r with value := some (mph t.cfg v) })

end Sys2Proof.Machine
end

