-- ==== Sys2Proof/Machine/Sequencer.lean ====
section
/-! DEFINITION. NOP, GETSTATE and PROBE (44_pipeline.md R250, R251; 40_transport.md R133). A meaning is the step that accepts the
command; the core runs it only while INFLIGHT is IDLE (R252). -/

namespace Sys2Proof.Machine

/-- NOP (R251). -/
def execNop (s : State) : Out := .next (s.emit { status := .ok })

/-- GETSTATE (R250). -/
def execGetstate (s : State) : Out := .next (s.emit { status := .ok, state := some s.stateByte })

/-- PROBE (R133), up to its request: any mode. `finishProbe` is the rest. -/
def execProbe (s : State) : Out := .next (s.issue .probe)

/-- PROBE (R133), from the transport's answer on: READY becomes the acknowledge bit. -/
def finishProbe (ack : Bool) (s : State) : Out :=
  if ack then .next (((s.setReady true).setInflight .idle).emit { status := .ok })
  else .next (((s.setReady false).setInflight .idle).fail .noack)

end Sys2Proof.Machine
end

