-- ==== Sys2Proof/Machine/Validator.lean ====
section
/-! DEFINITION. VALIDATE (41_validator.md R151). -/

namespace Sys2Proof.Machine

/-- VALIDATE (R151). A failed check is no status (R287). -/
def execValidate (f : Frame) (s : State) : Out :=
  gated s (.next ((s.setLastValid (checksum f).valid).emit (checksum f).result))

end Sys2Proof.Machine
end

