-- ==== Sys2Proof/Machine/Dispatch.lean ====
section
/-! DEFINITION. The meaning of each command, one arm per constructor (44_pipeline.md R252). -/

namespace Sys2Proof.Machine

def exec (i : Instr) (s : State) : Host.Outcome State Fault Refusal :=
  match i with
  | .nop => Sys2Proof.Machine.execNop s
  | .probe => Sys2Proof.Machine.execProbe s
  | .setrange p => Sys2Proof.Machine.execSetrange p s
  | .validate f => Sys2Proof.Machine.execValidate f s
  | .decode f => Sys2Proof.Machine.execDecode f s
  | .interp raw => Sys2Proof.Machine.execInterp raw s
  | .tomph v => Sys2Proof.Machine.execTomph v s
  | .readraw => Sys2Proof.Machine.execReadraw s
  | .readmps => Sys2Proof.Machine.execReadmps s
  | .readmph => Sys2Proof.Machine.execReadmph s
  | .getstate => Sys2Proof.Machine.execGetstate s

end Sys2Proof.Machine
end

