-- ==== Sys2Proof/Machine/Ports.lean ====
section
/-! DEFINITION. What the core does with one input: a command (44_pipeline.md R252), an answer (40_transport.md R132) or a reset
(70_reset_and_hazards.md R320). -/

namespace Sys2Proof.Machine

/-- One core step on the command word `w` (R252): decode, then the command's rule. A word that is no command completes
at once with `ILLEGAL` (R281). -/
def acceptCommand (w : Word48) (s : State) : Out :=
  match decode w with
  | .ok i => exec i s
  | .error _ => .next (s.fail .illegal)

/-- Finish the waiting command with its response (R132). An answer of the other kind is none to its request and is
discarded (R336; log entry 5). -/
def finish (c : BusCmd) (a : Answer) (s : State) : Out :=
  match c, a with
  | .probe, .probe ack => finishProbe ack s
  | .readRaw, .read r => finishReadraw r s
  | .readMps, .read r => finishReadmps r s
  | .readMph, .read r => finishReadmph r s
  | .probe, .read _ => .next s
  | .readRaw, .probe _ => .next s
  | .readMps, .probe _ => .next s
  | .readMph, .probe _ => .next s

/-- The transport's step: the response the core waits for finishes its command (R132); any other answer is discarded (R320). -/
def deliverAnswer (n : Nat) (a : Answer) (s : State) : Out :=
  match s.inflight with
  | .idle => .next s
  | .wait c _ => if s.awaits n then finish c a s else .next s

/-- What one input does. -/
def receive (e : Input) (s : State) : Out :=
  match e with
  | .command w => acceptCommand w s
  | .answer n a => deliverAnswer n a s
  | .reset => .next s.applyReset

/-- Take the next input and do what it does; with none to take, the core has no step of its own and stays as it is, idle or
waiting (R37, R132: a transport that never answers leaves a hang). -/
def stepOnce (s : State) : Out :=
  match takeInput s.inflight s.inputs with
  | some (e, rest) => receive e { s with inputs := rest }
  | none => .next s

/-- The host presents `w` next: at the head of the inputs, the port being ready. -/
def State.present (s : State) (w : Word48) : State :=
  { s with inflight := .idle, inputs := .command w :: s.inputs }

/-- `s` with the table's word presented next; a word of more than 48 bits cannot be presented and changes nothing (log entry 15). -/
def presentTableWord (s : State) (nbits w : Nat) : State :=
  match tableWord nbits w with
  | some word => s.present word
  | none => s

end Sys2Proof.Machine
end

