-- ==== Sys2Proof/Machine/Step.lean ====
section
/-! DEFINITION. One step of the machine: one input taken (44_pipeline.md R252; 40_transport.md R132; 70_reset_and_hazards.md R320). -/

namespace Sys2Proof.Machine

/-- One step. -/
def step (s : State) : Host.Outcome State Fault Refusal := stepOnce s

/-- `s` with the command word `w`, numbered as the opcode table numbers it, presented so that the very next step accepts it. -/
def State.withFetchWord (s : State) (nbits w : Nat) : State := presentTableWord s nbits w

end Sys2Proof.Machine
end

