-- ==== Sys2Proof/Machine/Assembler.lean ====
section
/-! DEFINITION. The assembler of 30_encoding.md R102 and R103: one command per line, mnemonic first, operands separated by
commas, `;` starts a comment. Not part of the machine: it only makes command words. Log entry 17 lists what R102 leaves open. -/

namespace Sys2Proof.Machine

/-- A written statement: the operand forms of R102, with numbers as written, and the pseudo-instructions of R103. -/
inductive Asm where
  | nop
  | probe
  | readraw
  | readmps
  | readmph
  | getstate
  | setrange (p : Profile)
  | validate (bytes : List Nat)
  | decode (bytes : List Nat)
  | interp (raw : Nat)
  /-- `TOMPH 0xhhhhhhhh`. -/
  | tomphPattern (v : Nat)
  /-- `TOMPH d` for the decimal literal `num / den`. -/
  | tomphDecimal (num : Int) (den : Nat)
  | setrange7
  | setrange15
  | readOfRaw
  | readOfMps
  | readOfMph
deriving DecidableEq, Repr

/-- Five byte values, each in range, as a frame (R102). -/
def frameOperand : List Nat → Option Frame
  | [a, b, c, d, e] =>
    if [a, b, c, d, e].all byteInRange then
      some ⟨BitVec.ofNat 8 a, BitVec.ofNat 8 b, BitVec.ofNat 8 c, BitVec.ofNat 8 d, BitVec.ofNat 8 e⟩
    else none
  | _ => none

/-- The one command a statement stands for; `none` is an assembly error (R102, R103). -/
def Asm.instr : Asm → Option Instr
  | .nop => some .nop
  | .probe => some .probe
  | .readraw => some .readraw
  | .readmps => some .readmps
  | .readmph => some .readmph
  | .getstate => some .getstate
  | .setrange p => some (.setrange p)
  | .validate bytes => (frameOperand bytes).map .validate
  | .decode bytes => (frameOperand bytes).map .decode
  | .interp raw => if rawInRange raw then some (.interp (BitVec.ofNat 12 raw)) else none
  | .tomphPattern v => if patternInRange v then some (.tomph (BitVec.ofNat 32 v)) else none
  | .tomphDecimal num den => some (.tomph (rne32 num den))
  | .setrange7 => some (.setrange .sevenMps)
  | .setrange15 => some (.setrange .fifteenMps)
  | .readOfRaw => some .readraw
  | .readOfMps => some .readmps
  | .readOfMph => some .readmph

/-- The word a statement assembles to; an operand out of range produces none (R102). -/
def Asm.assemble (a : Asm) : Option Word48 := a.instr.map encode

/-- A blank inside a line. -/
def isBlank (c : Char) : Bool := c = ' ' || c = '\t'

/-- A text without the blanks around it. -/
def trimBlanks (cs : List Char) : List Char := ((cs.dropWhile isBlank).reverse.dropWhile isBlank).reverse

/-- The parts of a text between commas. -/
def splitCommas : List Char → List (List Char)
  | [] => [[]]
  | c :: cs =>
    match splitCommas cs with
    | [] => [[c]]
    | w :: ws => if c = ',' then [] :: w :: ws else (c :: w) :: ws

/-- The value of a digit, decimal or hexadecimal. -/
def digitValue (c : Char) : Option Nat :=
  if '0' ≤ c ∧ c ≤ '9' then some (c.toNat - '0'.toNat)
  else if 'a' ≤ c ∧ c ≤ 'f' then some (c.toNat - 'a'.toNat + 10)
  else if 'A' ≤ c ∧ c ≤ 'F' then some (c.toNat - 'A'.toNat + 10)
  else none

/-- The number that digits of a base write after the value `acc`; `none` at a character that is no digit of the base. -/
def numberFrom (base : Nat) : Nat → List Char → Option Nat
  | acc, [] => some acc
  | acc, c :: cs =>
    match digitValue c with
    | some d => if d < base then numberFrom base (acc * base + d) cs else none
    | none => none

/-- A number of at least one digit. -/
def number (base : Nat) (cs : List Char) : Option Nat := if cs = [] then none else numberFrom base 0 cs

/-- An integer operand: decimal, or `0x` and hexadecimal digits (R102). -/
def integerOperand : List Char → Option Nat
  | '0' :: 'x' :: cs => number 16 cs
  | cs => number 10 cs

/-- An unsigned decimal literal `d` or `d.d`, as numerator and denominator. -/
def decimal (cs : List Char) : Option (Nat × Nat) :=
  let whole := cs.takeWhile (· != '.')
  match cs.dropWhile (· != '.') with
  | [] => (number 10 whole).map fun n => (n, 1)
  | _ :: frac =>
    match number 10 whole, number 10 frac with
    | some n, some m => some (n * 10 ^ frac.length + m, 10 ^ frac.length)
    | _, _ => none

/-- The operand of TOMPH: `0x` and 8 hexadecimal digits, or a decimal literal with an optional sign (R102). -/
def valueOperand : List Char → Option Asm
  | '0' :: 'x' :: cs => if cs.length = 8 then (number 16 cs).map .tomphPattern else none
  | '-' :: cs => (decimal cs).map fun q => .tomphDecimal (-(q.1 : Int)) q.2
  | '+' :: cs => (decimal cs).map fun q => .tomphDecimal q.1 q.2
  | cs => (decimal cs).map fun q => .tomphDecimal q.1 q.2

/-- The operand of SETRANGE (R102). -/
def profileOperand (cs : List Char) : Option Asm :=
  if cs = ['7'] then some (.setrange .sevenMps)
  else if cs = ['S', 'E', 'V', 'E', 'N', '_', 'M', 'P', 'S'] then some (.setrange .sevenMps)
  else if cs = ['1', '5'] then some (.setrange .fifteenMps)
  else if cs = ['F', 'I', 'F', 'T', 'E', 'E', 'N', '_', 'M', 'P', 'S'] then some (.setrange .fifteenMps)
  else none

/-- The statements that take no operand: six commands (R102) and two pseudo-instructions (R103). -/
def bareStatement (m : List Char) : Option Asm :=
  if m = ['N', 'O', 'P'] then some .nop
  else if m = ['P', 'R', 'O', 'B', 'E'] then some .probe
  else if m = ['R', 'E', 'A', 'D', 'R', 'A', 'W'] then some .readraw
  else if m = ['R', 'E', 'A', 'D', 'M', 'P', 'S'] then some .readmps
  else if m = ['R', 'E', 'A', 'D', 'M', 'P', 'H'] then some .readmph
  else if m = ['G', 'E', 'T', 'S', 'T', 'A', 'T', 'E'] then some .getstate
  else if m = ['S', 'E', 'T', 'R', 'A', 'N', 'G', 'E', '7'] then some .setrange7
  else if m = ['S', 'E', 'T', 'R', 'A', 'N', 'G', 'E', '1', '5'] then some .setrange15
  else none

/-- The statements with operands (R102), and `READ raw`, `READ mps`, `READ mph` (R103). -/
def operandStatement (m ops : List Char) : Option Asm :=
  let parts := (splitCommas ops).map trimBlanks
  if m = ['S', 'E', 'T', 'R', 'A', 'N', 'G', 'E'] then profileOperand ops
  else if m = ['V', 'A', 'L', 'I', 'D', 'A', 'T', 'E'] then (parts.mapM integerOperand).map .validate
  else if m = ['D', 'E', 'C', 'O', 'D', 'E'] then (parts.mapM integerOperand).map .decode
  else if m = ['I', 'N', 'T', 'E', 'R', 'P'] then (integerOperand ops).map .interp
  else if m = ['T', 'O', 'M', 'P', 'H'] then valueOperand ops
  else if m = ['R', 'E', 'A', 'D'] then
    if ops = ['r', 'a', 'w'] then some .readOfRaw
    else if ops = ['m', 'p', 's'] then some .readOfMps
    else if ops = ['m', 'p', 'h'] then some .readOfMph
    else none
  else none

/-- What a line of assembly text comes to. -/
inductive AsmLine where
  | blank
  | word (w : Word48)
  | error
deriving DecidableEq, Repr

/-- One line of assembly text (R102). -/
def assembleLine (line : List Char) : AsmLine :=
  let text := trimBlanks (line.takeWhile (· != ';'))
  let m := text.takeWhile (!isBlank ·)
  let ops := trimBlanks (text.dropWhile (!isBlank ·))
  if text = [] then .blank
  else
    match (if ops = [] then bareStatement m else operandStatement m ops).bind Asm.assemble with
    | some w => .word w
    | none => .error

end Sys2Proof.Machine
end

