-- ==== Sys2Proof/Safety.lean ====
section
/-! DEFINITION. What counts as a safe run: the invariant of a state, and a step that goes on. -/

namespace Sys2Proof.Machine

/-- The rational value of a finite binary32 pattern (R11): a unit is 2^-149. -/
def valueOf (v : F32) : ℚ := (toUnits v : ℚ) / 2 ^ 149

/-- The rational value of a finite binary64 magnitude pattern (R197): a unit is 2^-1074. -/
def valueOf64 (p : Nat) : ℚ := (magUnits binary64 p : ℚ) / 2 ^ 1074

/-- R45: a result whose status is not `OK` carries no other field. -/
def Result.clean (r : Result) : Prop := r.status ≠ .ok → r = { status := r.status }

/-- What holds while the core waits: the outstanding request is the one its command issues (R130, R131) and is the last
one issued (R73), and only PROBE waits while `READY = 0` (R136). -/
def InFlight.consistent (f : InFlight) (ready : Bool) (requests : List Request) : Prop :=
  ∀ c req, f = .wait c req → req = c.request ∧ requests.getLast? = some req ∧ (c ≠ .probe → ready = true)

/-- The invariant of the machine: a consistent INFLIGHT, every request ever issued is one of the two of R41 at address
`0x28`, and no error result carries a reading. -/
def State.Inv (s : State) : Prop :=
  s.inflight.consistent s.ready s.requests ∧
  (∀ r ∈ s.requests, r = .probe deviceAddr ∨ r = .read deviceAddr frameLen) ∧
  (∀ r ∈ s.results, r.clean)

/-- A safe step: the machine goes on. -/
def SafeStep (s : State) : Prop := ∃ t, step s = .next t

/-- A safe run of `k` steps. -/
def SafeRun (k : Nat) (s : State) : Prop :=
  ∃ t, Host.Core.run Sys2Proof.core k s = .next t

/-- A READ command `i`, accepted in `s`, requests the frame read of R131 and waits; the answer to that request, whatever
input follows it, gives the one result `r` with `LAST_VALID = valid` and goes idle, and everything else stays as it was in `s`. -/
def CompletesOnAnswer (i : Instr) (c : BusCmd) (answer : ReadAnswer) (s : State) (valid : Bool) (r : Result) : Prop :=
  ∃ t, exec i s = .next t ∧
    t = { s with inflight := .wait c (.read 0x28#7 5), requests := s.requests ++ [.read 0x28#7 5] } ∧
    ∀ rest : List Input, step { t with inputs := .answer s.requests.length (.read answer) :: rest } =
      .next { s with
        lastValid := valid
        inflight := .idle
        inputs := rest
        requests := s.requests ++ [.read 0x28#7 5]
        results := s.results ++ [r] }

end Sys2Proof.Machine
end

