-- ==== Sys2Proof/Certificates/Slice0/Obligations.lean ====
section
/-! DEFINITION. The statements about FS3000-CORE for the provers. Each docstring names the rule of spec/ it formalises. -/

open Sys2Proof Sys2Proof.Machine

/-! ### Encoding (30_encoding.md) -/

/-- Decoding an encoded command gives the command back, with every operand at every value (30_encoding.md R92 to R98). -/
def Obligations.DecodeOfEncode : Prop := ∀ i : Instr, decode (encode i) = .ok i

/-- A word that decodes is exactly the word its command encodes to: no bit of a legal word is free (R92, R99). -/
def Obligations.EncodeOfDecode : Prop := ∀ (w : Word48) (i : Instr), decode w = .ok i → encode i = w

/-- R97: a word is the command of a row iff `(W & mask) == match`, and no two rows share a word. (That no two share one is
the spec's own inference.) -/
def Obligations.OpcodeMapRows : Prop :=
  (∀ w : Word48,
    (decode w = .ok .nop ↔ w &&& 0xFFFFFFFFFFFF#48 = 0x000000000000#48) ∧
    (decode w = .ok .probe ↔ w &&& 0xFFFFFFFFFFFF#48 = 0x100000000000#48) ∧
    ((∃ p, decode w = .ok (.setrange p)) ↔ w &&& 0xFEFFFFFFFFFF#48 = 0x200000000000#48) ∧
    ((∃ f, decode w = .ok (.validate f)) ↔ w &&& 0xFF0000000000#48 = 0x300000000000#48) ∧
    ((∃ f, decode w = .ok (.decode f)) ↔ w &&& 0xFF0000000000#48 = 0x400000000000#48) ∧
    ((∃ r, decode w = .ok (.interp r)) ↔ w &&& 0xFFF000FFFFFF#48 = 0x500000000000#48) ∧
    ((∃ v, decode w = .ok (.tomph v)) ↔ w &&& 0xFF00000000FF#48 = 0x600000000000#48) ∧
    (decode w = .ok .readraw ↔ w &&& 0xFFFFFFFFFFFF#48 = 0x700000000000#48) ∧
    (decode w = .ok .readmps ↔ w &&& 0xFFFFFFFFFFFF#48 = 0x710000000000#48) ∧
    (decode w = .ok .readmph ↔ w &&& 0xFFFFFFFFFFFF#48 = 0x720000000000#48) ∧
    (decode w = .ok .getstate ↔ w &&& 0xFFFFFFFFFFFF#48 = 0x800000000000#48)) ∧
  (∀ (w : Word48) (r r' : Row), r ∈ opcodeMap → r' ∈ opcodeMap → r.accepts w = true → r'.accepts w = true →
    r.mnemonic = r'.mnemonic)

/-- R93 to R96: where each operand lies in the word: `frame[k] = O[39-8k : 32-8k]`, `raw = O[35:24]`, `v = O[39:8]`, `p = M[0]`. -/
def Obligations.OperandPlaces : Prop :=
  ∀ w : Word48,
    (∀ f, decode w = .ok (.validate f) ∨ decode w = .ok (.decode f) →
      f.f0 = w.extractLsb' 32 8 ∧ f.f1 = w.extractLsb' 24 8 ∧ f.f2 = w.extractLsb' 16 8 ∧
      f.f3 = w.extractLsb' 8 8 ∧ f.f4 = w.extractLsb' 0 8) ∧
    (∀ raw, decode w = .ok (.interp raw) → raw = w.extractLsb' 24 12) ∧
    (∀ v, decode w = .ok (.tomph v) → v = w.extractLsb' 8 32) ∧
    (∀ p, decode w = .ok (.setrange p) → p = if w.getLsbD 40 then .fifteenMps else .sevenMps)

/-- R99: which words are `ILLEGAL`, and that such a word, presented while the core is idle, completes at once with
`status = ILLEGAL` and no other field, changing no state and issuing no request, in either mode. -/
def Obligations.IllegalWords : Prop :=
  ∀ w : Word48,
    let op := w.extractLsb' 44 4
    let m := w.extractLsb' 40 4
    ((∃ e, decode w = .error e) ↔
      (9#4 ≤ op ∨ (op = 7#4 ∧ 3#4 ≤ m) ∨
       ((op = 0#4 ∨ op = 1#4 ∨ op = 2#4 ∨ op = 7#4 ∨ op = 8#4) ∧ w.extractLsb' 0 40 ≠ 0#40) ∨
       (op = 5#4 ∧ (w.extractLsb' 36 4 ≠ 0#4 ∨ w.extractLsb' 0 24 ≠ 0#24)) ∨
       (op = 6#4 ∧ w.extractLsb' 0 8 ≠ 0#8) ∨
       ((op = 0#4 ∨ op = 1#4 ∨ op = 3#4 ∨ op = 4#4 ∨ op = 5#4 ∨ op = 6#4 ∨ op = 8#4) ∧ m ≠ 0#4) ∨
       (op = 2#4 ∧ w.extractLsb' 41 3 ≠ 0#3))) ∧
    (∀ e, decode w = .error e → ∀ (s : State) (rest : List Input), s.inflight = .idle →
      step { s with inputs := .command w :: rest } =
        .next { s with inputs := rest, results := s.results ++ [{ status := .illegal }] })

/-- R90: written as bytes, byte 0 is `W[47:40]` and byte 5 is `W[7:0]`, big-endian; there is one command length. -/
def Obligations.WordWrittenBigEndian : Prop :=
  (∀ b0 b1 b2 b3 b4 b5 : Byte, ∃ w : Word48, wordBytes w = [b0, b1, b2, b3, b4, b5] ∧
    w.toNat = ((((b0.toNat * 256 + b1.toNat) * 256 + b2.toNat) * 256 + b3.toNat) * 256 + b4.toNat) * 256 + b5.toNat ∧
    decodeBytes [b0, b1, b2, b3, b4, b5] = decode w) ∧
  (∀ bs : List Byte, bs.length ≠ 6 → decodeBytes bs = .error .wrongLength)

/-- Words written out from the formats of R92 and the opcodes of R97 decode to the commands they stand for. -/
def Obligations.SampleWordsDecode : Prop :=
  decode 0x000000000000#48 = .ok .nop ∧ decode 0x100000000000#48 = .ok .probe ∧
  decode 0x210000000000#48 = .ok (.setrange .fifteenMps) ∧
  decode 0x30F601020304#48 = .ok (.validate ⟨0xF6#8, 0x01#8, 0x02#8, 0x03#8, 0x04#8⟩) ∧
  decode 0x40000B2C0000#48 = .ok (.decode ⟨0x00#8, 0x0B#8, 0x2C#8, 0x00#8, 0x00#8⟩) ∧
  decode 0x500B2C000000#48 = .ok (.interp 2860#12) ∧ decode 0x6040E75C2900#48 = .ok (.tomph 0x40E75C29#32) ∧
  decode 0x720000000000#48 = .ok .readmph ∧ decode 0x800000000000#48 = .ok .getstate

/-! ### Floating point (00_scope.md R11) -/

/-- R11: `rne32(q)` is the binary32 value nearest to `q`, ties to the value whose fraction is even, overflowing to the
infinity of `q`'s sign from half a unit above the largest finite value on. The IEEE 754 meaning of these words is the model's
presumption (log entry 9). -/
def Obligations.RoundsToNearestEven : Prop :=
  ∀ (num : Int) (den : Nat), 0 < den →
    (isFinite (rne32 num den) = true → ∀ p : F32, isFinite p = true →
      |(num : ℚ) / den - valueOf (rne32 num den)| ≤ |(num : ℚ) / den - valueOf p| ∧
      (|(num : ℚ) / den - valueOf (rne32 num den)| = |(num : ℚ) / den - valueOf p| →
        valueOf p ≠ valueOf (rne32 num den) → (rne32 num den).getLsbD 0 = false)) ∧
    (isFinite (rne32 num den) = false ↔ (2 ^ 25 - 1) * 2 ^ 103 ≤ |(num : ℚ) / den|) ∧
    (isFinite (rne32 num den) = false →
      rne32 num den = if num < 0 then 0xFF800000#32 else 0x7F800000#32)

/-- R11: each operation on finite operands is its exact result, rounded once by `rne32` (here where that result is not zero);
`i2f` is exact up to 2^24. IEEE 754: log entry 9. -/
def Obligations.OperationsRoundOnce : Prop :=
  (∀ (a b c : F32) (num : Int) (den : Nat), isFinite a = true → isFinite b = true → isFinite c = true → 0 < den → num ≠ 0 →
    ((num : ℚ) / den = valueOf a + valueOf b → fadd a b = rne32 num den) ∧
    ((num : ℚ) / den = valueOf a - valueOf b → fsub a b = rne32 num den) ∧
    ((num : ℚ) / den = valueOf a * valueOf b → fmul a b = rne32 num den) ∧
    (valueOf b ≠ 0 → (num : ℚ) / den = valueOf a / valueOf b → fdiv a b = rne32 num den) ∧
    ((num : ℚ) / den = valueOf a * valueOf b + valueOf c → fma a b c = rne32 num den)) ∧
  (∀ n : Int, |n| ≤ 2 ^ 24 → isFinite (i2f n) = true ∧ valueOf (i2f n) = n)

/-- R8: the fixed constants; the raw values are exactly the numbers of 12 bits; the mph factor is its decimal literal rounded once (and R197's binary64 one likewise). (The bits
of the factor: the spec's own rounding.) -/
def Obligations.FixedConstants : Prop :=
  deviceAddr = 0x28#7 ∧ frameLen = 5 ∧ (∀ n : Nat, n < 2 ^ 12 ↔ ∃ raw : Raw, raw.toNat = n) ∧ mphFactor = 0x400F29F7#32 ∧
  mphFactor = rne32 22369362912 10000000000 ∧
  roundMag binary64 (22369362912 * 2 ^ 1074) 10000000000 = 0x4001E53EDAAF842A

/-! ### Calibration ROM (00_scope.md R7; 20_memory.md) -/

/-- R7: what every instantiation's tables satisfy. -/
def Obligations.TablesMeetConstraints : Prop :=
  ∀ c : Config,
    c.cal7.length = 9 ∧ c.cal15.length = 13 ∧
    (∀ p, (∃ v, romRead c p 0 = some ⟨409#12, v⟩)) ∧
    romRead c .sevenMps 8 = some ⟨3686#12, 0x40E75C29#32⟩ ∧ romRead c .fifteenMps 12 = some ⟨3686#12, 0x41700000#32⟩ ∧
    (∀ p j k a b, j < k → romRead c p j = some a → romRead c p k = some b →
      a.raw < b.raw ∧ valueOf a.vel ≤ valueOf b.vel) ∧
    (∀ p k a, romRead c p k = some a → isFinite a.vel = true ∧ 0 ≤ valueOf a.vel)

/-- R62, R63: each default velocity is `rne32` of its decimal literal. The interior points are the model's presumption (log
entry 8). -/
def Obligations.DefaultVelocitiesRounded : Prop :=
  defaultCal7.map Point.vel =
    [rne32 0 1, rne32 107 100, rne32 201 100, rne32 300 100, rne32 397 100, rne32 496 100, rne32 598 100, rne32 699 100,
     rne32 723 100] ∧
  defaultCal15.map Point.vel =
    [rne32 0 1, rne32 2 1, rne32 3 1, rne32 4 1, rne32 5 1, rne32 6 1, rne32 7 1, rne32 8 1, rne32 9 1, rne32 10 1,
     rne32 11 1, rne32 13 1, rne32 15 1] ∧
  defaultCal7.map Point.raw =
    [409#12, 915#12, 1522#12, 2066#12, 2523#12, 2908#12, 3256#12, 3572#12, 3686#12] ∧
  defaultCal15.map Point.raw =
    [409#12, 1203#12, 1597#12, 1908#12, 2187#12, 2400#12, 2629#12, 2801#12, 3006#12, 3178#12, 3309#12, 3563#12, 3686#12]

/-! ### Conversion (43_conversion.md) -/

/-- R194, for INTERP while Ready: the floor, the ceiling, and that every result is finite and not negative; nothing but the
result port changes. (The third clause is the spec's own inference, for operations as in log entry 9.) -/
def Obligations.InterpSaturates : Prop :=
  ∀ (s : State) (raw : Raw), s.ready = true →
    (raw.toNat ≤ 409 → exec (.interp raw) s =
      .next { s with results := s.results ++ [{ status := .ok, value := some 0x00000000#32 }] }) ∧
    (3686 ≤ raw.toNat → exec (.interp raw) s =
      .next { s with results := s.results ++ [{ status := .ok, value := some (match s.range with
        | .sevenMps => 0x40E75C29#32
        | .fifteenMps => 0x41700000#32) }] }) ∧
    (∃ v, exec (.interp raw) s = .next { s with results := s.results ++ [{ status := .ok, value := some v }] } ∧
      isFinite v = true ∧ signBit v = false)

/-- R191, steps 3 and 4, and R192: between the end points there is a bracket inside the ROM, and on whichever bracket holds
the raw value INTERP returns the interpolation in the order and with the roundings of R191. -/
def Obligations.InterpOnBracket : Prop :=
  ∀ (s : State) (raw : Raw), s.ready = true → 409 < raw.toNat → raw.toNat < 3686 →
    (∃ (i : Nat) (lo hi : Point), i + 1 < s.range.size ∧ romRead s.cfg s.range i = some lo ∧
      romRead s.cfg s.range (i + 1) = some hi ∧ lo.raw < raw ∧ raw ≤ hi.raw) ∧
    (∀ (i : Nat) (lo hi : Point), romRead s.cfg s.range i = some lo → romRead s.cfg s.range (i + 1) = some hi →
      lo.raw < raw → raw ≤ hi.raw →
      let t := fdiv (i2f ((raw.toNat : Int) - lo.raw.toNat)) (i2f ((hi.raw.toNat : Int) - lo.raw.toNat))
      let d := fsub hi.vel lo.vel
      let v := if s.cfg.macFused then fma t d lo.vel else fadd lo.vel (fmul t d)
      exec (.interp raw) s = .next { s with results := s.results ++ [{ status := .ok, value := some v }] })

/-- R192: the fraction `t` of a bracket lies in `(0, 1]`, and is 1.0 exactly at the upper point. The spec's own inference. -/
def Obligations.FractionInUnitInterval : Prop :=
  ∀ num den : Nat, 1 ≤ num → num ≤ den → den ≤ 4095 →
    let t := fdiv (i2f num) (i2f den)
    isFinite t = true ∧ 0 < valueOf t ∧ valueOf t ≤ 1 ∧ (t = 0x3F800000#32 ↔ num = den)

/-- R193: a raw value equal to an interior table point takes the bracket below it, with `t = 1.0`; for the default tables the
result is then the point's own velocity, bit for bit, under both settings of `MAC_FUSED`. The second clause rests on the
presumed tables (log entry 8). -/
def Obligations.TieTakesBracketBelow : Prop :=
  (∀ (c : Config) (p : Profile) (k : Nat) (lo pt : Point), k + 1 < p.size - 1 → romRead c p k = some lo →
    romRead c p (k + 1) = some pt →
    bracket pt.raw (c.table p) = k ∧
    interp c p pt.raw = some (if c.macFused then fma 0x3F800000#32 (fsub pt.vel lo.vel) lo.vel
      else fadd lo.vel (fmul 0x3F800000#32 (fsub pt.vel lo.vel)))) ∧
  (∀ (fused : Bool) (p : Profile) (k : Nat) (pt : Point), 0 < k → k < p.size - 1 → romRead defaultConfig p k = some pt →
    interp { defaultConfig with macFused := fused } p pt.raw = some pt.vel)

/-- R196, for the default tables: over all raw values the computed results are non-decreasing, for both profiles and both
settings of `MAC_FUSED`. The spec's own inference, on the presumed tables (log entry 8). -/
def Obligations.DefaultResultsNonDecreasing : Prop :=
  ∀ (fused : Bool) (p : Profile) (raw raw' : Raw) (v v' : F32), raw ≤ raw' →
    interp { defaultConfig with macFused := fused } p raw = some v →
    interp { defaultConfig with macFused := fused } p raw' = some v' → valueOf v ≤ valueOf v'

/-- R196, for the default tables: on its bracket each computed result differs from the exact piecewise-linear function by
less than `6e-7`. The spec's own inference, on the presumed tables (log entry 8). -/
def Obligations.DefaultResultsAccurate : Prop :=
  ∀ (fused : Bool) (p : Profile) (raw : Raw) (i : Nat) (lo hi : Point) (v : F32),
    romRead defaultConfig p i = some lo → romRead defaultConfig p (i + 1) = some hi → lo.raw < raw → raw ≤ hi.raw →
    interp { defaultConfig with macFused := fused } p raw = some v →
    |valueOf v - (valueOf lo.vel + ((raw.toNat : ℚ) - lo.raw.toNat) / ((hi.raw.toNat : ℚ) - lo.raw.toNat) *
      (valueOf hi.vel - valueOf lo.vel))| < 6 / 10 ^ 7

/-- R197, R198: with `MPH_PRECISION = binary32` the conversion is the one rounded product of the operand and the constant; it
keeps the sign, and an operand of zero gives that zero. IEEE 754, the sign of zero included, is the model's presumption (log
entry 9). -/
def Obligations.MphIsOneProduct : Prop :=
  ∀ (c : Config) (v : F32), c.mphPrecision = .binary32 → isFinite v = true →
    signBit (mph c v) = signBit v ∧
    (valueOf v = 0 → mph c v = v) ∧
    (∀ (num : Int) (den : Nat), 0 < den → num ≠ 0 → (num : ℚ) / den = valueOf v * valueOf 0x400F29F7#32 →
      mph c v = rne32 num den)

/-- R197: with `MPH_PRECISION = binary64` (the second line) the exact product of the operand's magnitude and the binary64 constant
is rounded to the nearest binary64 value, ties to even, and that value is rounded again by `rne32`; the sign is the operand's,
and an operand of zero gives that zero. IEEE 754 is the model's presumption (log entry 9). -/
def Obligations.MphBinary64RoundsTwice : Prop :=
  ∀ (c : Config) (v : F32), c.mphPrecision = .binary64 → isFinite v = true →
    signBit (mph c v) = signBit v ∧
    (valueOf v = 0 → mph c v = v) ∧
    ∃ p : Nat, p < 0x7FF0000000000000 ∧
      (∀ p' : Nat, p' < 0x7FF0000000000000 →
        |(|valueOf v| * valueOf64 0x4001E53EDAAF842A) - valueOf64 p| ≤ |(|valueOf v| * valueOf64 0x4001E53EDAAF842A) - valueOf64 p'| ∧
        (|(|valueOf v| * valueOf64 0x4001E53EDAAF842A) - valueOf64 p| =
            |(|valueOf v| * valueOf64 0x4001E53EDAAF842A) - valueOf64 p'| →
          p' ≠ p → p % 2 = 0)) ∧
      (∀ (num : Int) (den : Nat), 0 < den → num ≠ 0 →
        (num : ℚ) / den = (if signBit v then -valueOf64 p else valueOf64 p) → mph c v = rne32 num den)

/-- R212, R286, R283: TOMPH: the product for a finite operand, `BADOP` for an infinity or a NaN, `NOTREADY` before either. -/
def Obligations.TomphResult : Prop :=
  ∀ (s : State) (v : F32),
    (s.ready = true → v.extractLsb' 23 8 ≠ 0xFF#8 → s.cfg.mphPrecision = .binary32 → exec (.tomph v) s =
      .next { s with results := s.results ++ [{ status := .ok, value := some (fmul v 0x400F29F7#32) }] }) ∧
    (s.ready = true → v.extractLsb' 23 8 ≠ 0xFF#8 → s.cfg.mphPrecision = .binary64 → exec (.tomph v) s =
      .next { s with results := s.results ++ [{ status := .ok, value := some (mph64 v) }] }) ∧
    (s.ready = true → v.extractLsb' 23 8 = 0xFF#8 → exec (.tomph v) s =
      .next { s with results := s.results ++ [{ status := .badop }] }) ∧
    (s.ready = false → exec (.tomph v) s = .next { s with results := s.results ++ [{ status := .notready }] })

/-- R210: SETRANGE writes RANGE and nothing else, in any mode, and a second one with the same profile leaves the same RANGE. -/
def Obligations.SetrangeResult : Prop :=
  ∀ (s : State) (p : Profile),
    exec (.setrange p) s = .next { s with range := p, results := s.results ++ [{ status := .ok }] } ∧
    exec (.setrange p) { s with range := p, results := s.results ++ [{ status := .ok }] } =
      .next { s with range := p, results := s.results ++ [{ status := .ok }] ++ [{ status := .ok }] }

/-- R210, R330, R34: a SETRANGE takes effect from the very next command on: at the ceiling, INTERP gives the new profile's. -/
def Obligations.SetrangeActsOnNextCommand : Prop :=
  ∀ (s : State) (p : Profile) (raw : Raw) (rest : List Input), s.inflight = .idle → s.ready = true → 3686 ≤ raw.toNat →
    Host.Core.run Sys2Proof.core 2
        { s with inputs := .command (encode (.setrange p)) :: .command (encode (.interp raw)) :: rest } =
      .next { s with range := p, inputs := rest, results := s.results ++
        [{ status := .ok }, { status := .ok, value := some (match p with
          | .sevenMps => 0x40E75C29#32
          | .fifteenMps => 0x41700000#32) }] }

/-! ### Validator and extractor (41_validator.md, 42_extract.md) -/

/-- R150, R151: VALIDATE while Ready: the sum of bytes 1 to 4, its negation, the overall sum, all modulo 256, and LAST_VALID;
nothing else changes. -/
def Obligations.ValidateResult : Prop :=
  ∀ (s : State) (f : Frame), s.ready = true →
    let sum := (f.f1.toNat + f.f2.toNat + f.f3.toNat + f.f4.toNat) % 256
    let overall := (sum + f.f0.toNat) % 256
    exec (.validate f) s =
      .next { s with
        lastValid := decide (overall = 0)
        results := s.results ++ [
          { status := .ok
            valid := some (decide (overall = 0))
            sum := some (BitVec.ofNat 8 sum)
            calculated := some (BitVec.ofNat 8 ((256 - sum) % 256))
            overall := some (BitVec.ofNat 8 overall) }] }

/-- R152: `valid = 1` iff `f0 == calc`, iff the five bytes sum to 0 modulo 256. The spec's own inference from R150. -/
def Obligations.ChecksumForms : Prop :=
  ∀ f : Frame,
    ((checksum f).valid = true ↔ f.f0 = (checksum f).calculated) ∧
    ((checksum f).valid = true ↔ (f.f0.toNat + f.f1.toNat + f.f2.toNat + f.f3.toNat + f.f4.toNat) % 256 = 0)

/-- R154: (a) one checksum byte fits a payload, and it is `calc`; (b) the order of the payload does not matter; (c) a change
to a single byte of a valid frame makes it invalid; (d) changes that cancel modulo 256 are not detected. The spec's own
inference from R150. -/
def Obligations.ChecksumLaws : Prop :=
  (∀ (f : Frame) (b : Byte), (checksum { f with f0 := b }).valid = true ↔ b = (checksum f).calculated) ∧
  (∀ f g : Frame, f.f0 = g.f0 → [f.f1, f.f2, f.f3, f.f4].Perm [g.f1, g.f2, g.f3, g.f4] →
    (checksum f).valid = (checksum g).valid) ∧
  (∀ (f : Frame) (b : Byte), (checksum f).valid = true →
    (b ≠ f.f0 → (checksum { f with f0 := b }).valid = false) ∧ (b ≠ f.f1 → (checksum { f with f1 := b }).valid = false) ∧
    (b ≠ f.f2 → (checksum { f with f2 := b }).valid = false) ∧ (b ≠ f.f3 → (checksum { f with f3 := b }).valid = false) ∧
    (b ≠ f.f4 → (checksum { f with f4 := b }).valid = false)) ∧
  (∀ f g : Frame, (checksum f).valid = true →
    f.f0 + f.f1 + f.f2 + f.f3 + f.f4 = g.f0 + g.f1 + g.f2 + g.f3 + g.f4 → (checksum g).valid = true)

/-- R170, R171, R172: DECODE while Ready: `raw = ((f1 & 0x0F) << 8) | f2`, whatever the checksum; no state is written. -/
def Obligations.DecodeResult : Prop :=
  ∀ (s : State) (f : Frame), s.ready = true →
    exec (.decode f) s = .next { s with results := s.results ++
      [{ status := .ok, raw := some (BitVec.ofNat 12 (f.f1.toNat % 16 * 256 + f.f2.toNat)) }] }

/-- R174: `Extract` on `(f1[3:0], f2)` is a bijection onto `[0, 4095]`, and `f1[7:4]` does not matter. The spec's own
inference from R170. -/
def Obligations.ExtractBijection : Prop :=
  ∀ raw : Raw, ∃ (low : BitVec 4) (f2 : Byte), (∀ high : BitVec 4, extract (high ++ low) f2 = raw) ∧
    ∀ (high low' : BitVec 4) (f2' : Byte), extract (high ++ low') f2' = raw → low' = low ∧ f2' = f2

/-! ### Sequencer, state query, probe (44_pipeline.md, 40_transport.md, 10_state.md) -/

/-- R251: NOP gives `OK` and changes nothing else. -/
def Obligations.NopResult : Prop :=
  ∀ s : State, exec .nop s = .next { s with results := s.results ++ [{ status := .ok }] }

/-- R250, R38: GETSTATE in any mode: bit 0 READY, bit 1 RANGE, bit 2 LAST_VALID, bits 7:3 zero; nothing else changes. Right
after reset the byte is 0. (The last is the spec's own inference.) -/
def Obligations.GetstateResult : Prop :=
  (∀ s : State, exec .getstate s = .next { s with results := s.results ++ [{ status := .ok, state := some (BitVec.ofNat 8
    ((if s.ready then 1 else 0) + (if s.range = .fifteenMps then 2 else 0) + (if s.lastValid then 4 else 0))) }] }) ∧
  exec .getstate State.reset = .next { State.reset with results := [{ status := .ok, state := some 0x00#8 }] }

/-- R133, R132: PROBE in any mode requests a probe of `0x28` and waits; the answer to that request makes READY the
acknowledge bit, gives the one result, and returns to IDLE; RANGE and LAST_VALID stay. That an answer names its request by
number is the model's choice (log entry 4). -/
def Obligations.ProbeCompletes : Prop :=
  ∀ s : State, ∃ t, exec .probe s = .next t ∧
    t = { s with inflight := .wait .probe (.probe 0x28#7), requests := s.requests ++ [.probe 0x28#7] } ∧
    ∀ (ack : Bool) (rest : List Input),
      step { t with inputs := .answer s.requests.length (.probe ack) :: rest } =
        .next { s with
          ready := ack
          inflight := .idle
          inputs := rest
          requests := s.requests ++ [.probe 0x28#7]
          results := s.results ++ [{ status := if ack then .ok else .noack }] }

/-- R130, R131, R135: while Ready each READ command issues one request, a read of 5 bytes at `0x28`, and waits for its answer. -/
def Obligations.RequestsIssued : Prop :=
  ∀ s : State, s.ready = true →
    exec .readraw s = .next { s with inflight := .wait .readRaw (.read 0x28#7 5), requests := s.requests ++ [.read 0x28#7 5] } ∧
    exec .readmps s = .next { s with inflight := .wait .readMps (.read 0x28#7 5), requests := s.requests ++ [.read 0x28#7 5] } ∧
    exec .readmph s = .next { s with inflight := .wait .readMph (.read 0x28#7 5), requests := s.requests ++ [.read 0x28#7 5] }

/-- R240, R241: READRAW while Ready, answered by five bytes or more (R131: the first five count): validity, the diagnostic
triple and the raw sample of those bytes, valid or not. Answers name their request by number by the model's choice (log entry
4); more than five bytes: log entry 6. -/
def Obligations.ReadrawCompletes : Prop :=
  ∀ (s : State) (f : Frame) (more : List Byte), s.ready = true →
    CompletesOnAnswer .readraw .readRaw (.data (f.f0 :: f.f1 :: f.f2 :: f.f3 :: f.f4 :: more)) s (checksum f).valid
      { status := .ok
        valid := some (checksum f).valid
        sum := some (checksum f).sum
        calculated := some (checksum f).calculated
        overall := some (checksum f).overall
        raw := some (extract f.f1 f.f2) }

/-- R240, R242, R244: READMPS likewise, and the interpolated velocity in m/s, whether the frame is valid or not. Log entries
4 and 6 as for READRAW. -/
def Obligations.ReadmpsCompletes : Prop :=
  ∀ (s : State) (f : Frame) (more : List Byte), s.ready = true →
    ∃ v, interp s.cfg s.range (extract f.f1 f.f2) = some v ∧
      CompletesOnAnswer .readmps .readMps (.data (f.f0 :: f.f1 :: f.f2 :: f.f3 :: f.f4 :: more)) s (checksum f).valid
        { status := .ok
          valid := some (checksum f).valid
          sum := some (checksum f).sum
          calculated := some (checksum f).calculated
          overall := some (checksum f).overall
          raw := some (extract f.f1 f.f2)
          value := some v }

/-- R240, R243, R244: READMPH likewise, and the velocity in mph; the m/s value is not returned. Log entries 4 and 6 as for
READRAW. -/
def Obligations.ReadmphCompletes : Prop :=
  ∀ (s : State) (f : Frame) (more : List Byte), s.ready = true →
    ∃ v, interp s.cfg s.range (extract f.f1 f.f2) = some v ∧ isFinite v = true ∧
      CompletesOnAnswer .readmph .readMph (.data (f.f0 :: f.f1 :: f.f2 :: f.f3 :: f.f4 :: more)) s (checksum f).valid
        { status := .ok
          valid := some (checksum f).valid
          sum := some (checksum f).sum
          calculated := some (checksum f).calculated
          overall := some (checksum f).overall
          raw := some (extract f.f1 f.f2)
          value := some (mph s.cfg v) }

/-- R284, R285, R134, R35: a READ command that is not acknowledged, or receives fewer than five bytes, ends with `NOACK` or
`SHORT` and no other field, clears LAST_VALID and leaves READY. Answers name their request by number by the model's choice
(log entry 4). -/
def Obligations.FailedReads : Prop :=
  ∀ s : State, s.ready = true →
    (CompletesOnAnswer .readraw .readRaw .noAck s false { status := .noack } ∧
     CompletesOnAnswer .readmps .readMps .noAck s false { status := .noack } ∧
     CompletesOnAnswer .readmph .readMph .noAck s false { status := .noack }) ∧
    (∀ bytes : List Byte, bytes.length < 5 →
      CompletesOnAnswer .readraw .readRaw (.data bytes) s false { status := .short } ∧
      CompletesOnAnswer .readmps .readMps (.data bytes) s false { status := .short } ∧
      CompletesOnAnswer .readmph .readMph (.data bytes) s false { status := .short })

/-- R245: on the same frame and RANGE, the value of READMPS is the value INTERP gives for the frame's raw sample, and the
value of READMPH is what TOMPH makes of the value of READMPS. The spec's own inference; log entry 4 as for READRAW. -/
def Obligations.ReadsCompose : Prop :=
  ∀ (s t : State) (f : Frame), s.ready = true → ∃ (check : Result) (mps mphv : F32),
    check.status = .ok ∧ check.raw = some (extract f.f1 f.f2) ∧ check.value = none ∧ check.state = none ∧
    CompletesOnAnswer .readraw .readRaw (.data [f.f0, f.f1, f.f2, f.f3, f.f4]) s (check.valid = some true) check ∧
    CompletesOnAnswer .readmps .readMps (.data [f.f0, f.f1, f.f2, f.f3, f.f4]) s (check.valid = some true)
      { check with value := some mps } ∧
    CompletesOnAnswer .readmph .readMph (.data [f.f0, f.f1, f.f2, f.f3, f.f4]) s (check.valid = some true)
      { check with value := some mphv } ∧
    (t.ready = true → t.cfg = s.cfg → t.range = s.range →
      exec (.interp (extract f.f1 f.f2)) t =
        .next { t with results := t.results ++ [{ status := .ok, value := some mps }] } ∧
      exec (.tomph mps) t = .next { t with results := t.results ++ [{ status := .ok, value := some mphv }] })

/-! ### Modes, errors, the step (60_exceptions.md, 44_pipeline.md R252) -/

/-- R283: while `READY = 0` the seven commands that require Ready end with `NOTREADY`: no state element is written and no
request issued. -/
def Obligations.NotReadyGate : Prop :=
  ∀ s : State, s.ready = false →
    (∀ f, exec (.validate f) s = .next { s with results := s.results ++ [{ status := .notready }] }) ∧
    (∀ f, exec (.decode f) s = .next { s with results := s.results ++ [{ status := .notready }] }) ∧
    (∀ raw, exec (.interp raw) s = .next { s with results := s.results ++ [{ status := .notready }] }) ∧
    (∀ v, exec (.tomph v) s = .next { s with results := s.results ++ [{ status := .notready }] }) ∧
    exec .readraw s = .next { s with results := s.results ++ [{ status := .notready }] } ∧
    exec .readmps s = .next { s with results := s.results ++ [{ status := .notready }] } ∧
    exec .readmph s = .next { s with results := s.results ++ [{ status := .notready }] }

/-- R282: the fixed order of the checks on a word accepted while idle: `ILLEGAL`, then `NOTREADY`, then `BADOP`; a word that
passes them completes with `OK`, or waits for the transport's answer. -/
def Obligations.StatusPriority : Prop :=
  ∀ (s : State) (w : Word48) (rest : List Input), s.inflight = .idle → s.inputs = .command w :: rest → ∃ t, step s = .next t ∧
    let anyMode := decode w = .ok .nop ∨ decode w = .ok .probe ∨ decode w = .ok .getstate ∨ ∃ p, decode w = .ok (.setrange p)
    let badOperand := ∃ v : F32, decode w = .ok (.tomph v) ∧ v.extractLsb' 23 8 = 0xFF#8
    (∀ e, decode w = .error e → t.results = s.results ++ [{ status := .illegal }]) ∧
    (∀ i, decode w = .ok i → ¬ anyMode → s.ready = false → t.results = s.results ++ [{ status := .notready }]) ∧
    (badOperand → s.ready = true → t.results = s.results ++ [{ status := .badop }]) ∧
    (∀ i, decode w = .ok i → anyMode ∨ s.ready = true → ¬ badOperand →
      (t.inflight = .idle ∧ ∃ r, r.status = .ok ∧ t.results = s.results ++ [r]) ∨
      (t.inflight ≠ .idle ∧ t.results = s.results))

/-- R280: the status codes are 0 to 5, each its own. -/
def Obligations.StatusCodes : Prop :=
  Status.ok.code = 0#3 ∧ Status.noack.code = 1#3 ∧ Status.short.code = 2#3 ∧ Status.notready.code = 3#3 ∧
  Status.illegal.code = 4#3 ∧ Status.badop.code = 5#3 ∧ ∀ a b : Status, a.code = b.code → a = b

/-- R252: while idle, a presented word that decodes is executed: the step is exec of its command, with the word taken off the
port. Inputs as a list are the model's choice (log entry 1). -/
def Obligations.StepRunsDecodedCommand : Prop :=
  ∀ (s : State) (w : Word48) (i : Instr) (rest : List Input), s.inflight = .idle → s.inputs = .command w :: rest →
    decode w = .ok i → step s = exec i { s with inputs := rest }

/-- 60_exceptions.md: the block has no trap; every error is a result. From every state a step gives a next state, and so does a
run of any number of steps: it never faults and never refuses, so the ROM is never read outside its domain (R64, R192). A step
with no input to take leaves the state as it is (log entry 3). -/
def Obligations.EveryStepGoesOn : Prop := (∀ s : State, SafeStep s) ∧ ∀ (k : Nat) (s : State), SafeRun k s

/-- R42, R132, R41: what one step adds to the ports. A command accepted while idle gives one result and stays idle, or issues
its one request, gives none, and waits; any other step of an idle core adds nothing. A waiting core issues no request; the
answer to its outstanding request, of that request's kind, gives exactly one result and leaves WAIT; any other answer gives none
and stays; reset gives none and leaves WAIT; with nothing to take, nothing changes. Nothing delivered or issued before is ever
altered. Ports as lists, numbered answers, a command held on a port that is not ready, and an answer of the wrong kind
discarded, are the model's choice (log entries 1, 2, 4, 5, 14). -/
def Obligations.OneResultPerCommand : Prop :=
  ∀ s t : State, step s = .next t →
    (s.inflight = .idle → (∃ w rest, s.inputs = .command w :: rest) →
      (t.inflight = .idle ∧ t.requests = s.requests ∧ ∃ r, t.results = s.results ++ [r]) ∨
      (∃ c, t.inflight = .wait c c.request ∧ t.requests = s.requests ++ [c.request] ∧ t.results = s.results)) ∧
    (s.inflight = .idle → (¬ ∃ w rest, s.inputs = .command w :: rest) →
      t.inflight = .idle ∧ t.requests = s.requests ∧ t.results = s.results) ∧
    (∀ c req, s.inflight = .wait c req →
      t.requests = s.requests ∧
      (∀ n a rest, takeInput s.inflight s.inputs = some (.answer n a, rest) →
        (s.awaits n = true → ((∃ ack, a = .probe ack) ↔ c = .probe) →
          t.inflight = .idle ∧ ∃ r, t.results = s.results ++ [r]) ∧
        (¬ (s.awaits n = true ∧ ((∃ ack, a = .probe ack) ↔ c = .probe)) →
          t.inflight = s.inflight ∧ t.results = s.results)) ∧
      (∀ rest, takeInput s.inflight s.inputs = some (.reset, rest) →
        t.inflight = .idle ∧ t.results = s.results ∧ t.ready = false ∧ t.range = .sevenMps ∧ t.lastValid = false) ∧
      (∀ w rest, takeInput s.inflight s.inputs ≠ some (.command w, rest)) ∧
      (takeInput s.inflight s.inputs = none → t = s))

/-! ### Who writes what (10_state.md R33 to R37; 20_memory.md R61) -/

/-- R33, R292: READY changes only in the step that takes the answer to the outstanding request of a PROBE (to the acknowledge
bit) or takes a reset (to 0). The input a step takes: log entries 1, 2; numbered answers: log entry 4. -/
def Obligations.ReadyWriters : Prop :=
  ∀ s t : State, step s = .next t → t.ready ≠ s.ready →
    (∃ (req : Request) (n : Nat) (ack : Bool) (rest : List Input), s.inflight = .wait .probe req ∧ s.awaits n = true ∧
      takeInput s.inflight s.inputs = some (.answer n (.probe ack), rest) ∧ t.ready = ack ∧ t.inflight = .idle) ∨
    (∃ rest, takeInput s.inflight s.inputs = some (.reset, rest) ∧ t.ready = false ∧ t.inflight = .idle)

/-- R34: RANGE changes only in the step that accepts a SETRANGE while idle, to its profile, or takes a reset, to 0. The input a
step takes: log entries 1, 2. -/
def Obligations.RangeWriters : Prop :=
  ∀ s t : State, step s = .next t → t.range ≠ s.range →
    (s.inflight = .idle ∧ ∃ w rest, s.inputs = .command w :: rest ∧ decode w = .ok (.setrange t.range)) ∨
    (∃ rest, takeInput s.inflight s.inputs = some (.reset, rest) ∧ t.range = .sevenMps)

/-- R35: LAST_VALID changes only in the step that accepts a VALIDATE while Ready, to that frame's validity; that takes the answer
to the outstanding request of a READ command, to the validity of a complete frame and to 0 otherwise; or that takes a reset, to
0. The input a step takes: log entries 1, 2; numbered answers: log entry 4. -/
def Obligations.LastValidWriters : Prop :=
  ∀ s t : State, step s = .next t → t.lastValid ≠ s.lastValid →
    (s.inflight = .idle ∧ s.ready = true ∧ ∃ w rest f, s.inputs = .command w :: rest ∧ decode w = .ok (.validate f) ∧
      t.lastValid = (checksum f).valid) ∨
    (∃ (c : BusCmd) (req : Request) (n : Nat) (a : ReadAnswer) (rest : List Input), s.inflight = .wait c req ∧ c ≠ .probe ∧
      s.awaits n = true ∧ takeInput s.inflight s.inputs = some (.answer n (.read a), rest) ∧
      t.lastValid = match readFrame a with
        | .frame f => (checksum f).valid
        | .noAck => false
        | .short => false) ∨
    (∃ rest, takeInput s.inflight s.inputs = some (.reset, rest) ∧ t.lastValid = false)

/-- R61: "No command, reset or transport response changes it": the calibration ROM, and the instance's parameters with it. -/
def Obligations.RomNeverWritten : Prop := ∀ s t : State, step s = .next t → t.cfg = s.cfg

/-- R37, R132: with no answer and no reset to come, a waiting core stays exactly as it is for any number of steps, however
many commands the host holds: the hang is kept. Held commands and the step that changes nothing are the model's (log entries
2, 3). -/
def Obligations.UnansweredRequestHangs : Prop :=
  ∀ (s : State) (c : BusCmd) (req : Request) (k : Nat), s.inflight = .wait c req →
    (∀ e ∈ s.inputs, ∃ w, e = .command w) → Host.Core.run Sys2Proof.core k s = .next s

/-- R40: a core that waits accepts no command: after any step from WAIT the host's commands are all still to come, in their
order. That they are held is the model's choice (log entry 2). -/
def Obligations.NoCommandAcceptedWhileWaiting : Prop :=
  ∀ s t : State, s.inflight ≠ .idle → step s = .next t →
    t.inputs.filterMap (fun e => match e with | .command w => some w | .answer _ _ => none | .reset => none) =
      s.inputs.filterMap (fun e => match e with | .command w => some w | .answer _ _ => none | .reset => none)

/-- R320, R132: an answer to anything but the outstanding request (none outstanding, or another request's) is discarded. The
number of a request is the model's choice (log entry 4). -/
def Obligations.LateAnswerDiscarded : Prop :=
  ∀ (s : State) (n : Nat) (a : Answer) (rest : List Input), s.inflight = .idle ∨ n + 1 ≠ s.requests.length →
    step { s with inputs := .answer n a :: rest } = .next { s with inputs := rest }

/-- R320, R43: reset, asserted at any time, also behind commands the host holds on the port of a waiting core, returns the
four elements to their reset values, gives no result, and leaves the ROM. That held commands and the logs of the ports stay
is the model's choice (log entries 2, 21). -/
def Obligations.ResetEvent : Prop :=
  ∀ (s : State) (held : List Word48) (rest : List Input), s.inflight ≠ .idle ∨ held = [] →
    step { s with inputs := held.map .command ++ .reset :: rest } =
      .next { s with
        ready := false
        range := .sevenMps
        lastValid := false
        inflight := .idle
        inputs := held.map .command ++ rest }

/-- R320, R321, R38: the state after reset: Uninitialized, `SEVEN_MPS`, no frame known valid, idle; STATE is 0. -/
def Obligations.ResetState : Prop :=
  State.reset.ready = false ∧ State.reset.range = .sevenMps ∧ State.reset.lastValid = false ∧
  State.reset.inflight = .idle ∧ State.reset.stateByte = 0x00#8

/-! ### The invariant -/

/-- Every step keeps the invariant of Safety.lean: a waiting core waits for its own command's request, the last one issued,
and only PROBE waits while `READY = 0` (R130, R131, R136); every request is one of R41's two; an error result carries
nothing but its status (R45). -/
def Obligations.InvKeptByStep : Prop := ∀ s t : State, s.Inv → step s = .next t → t.Inv

/-- The invariant holds at reset. -/
def Obligations.InvAtReset : Prop := State.reset.Inv

/-! ### Byte order of results and assembler (20_memory.md R67; 30_encoding.md R102, R103) -/

/-- R67: the 32-bit value of a result is written most significant byte first. -/
def Obligations.ValueWrittenBigEndian : Prop :=
  ∀ v : F32, ∃ b0 b1 b2 b3 : Byte, valueBytes v = [b0, b1, b2, b3] ∧
    v.toNat = ((b0.toNat * 256 + b1.toNat) * 256 + b2.toNat) * 256 + b3.toNat ∧ signBit v = b0.getLsbD 7

/-- R103: each pseudo-instruction expands to one command, with the word of R103's table. -/
def Obligations.PseudoInstructions : Prop :=
  Asm.setrange7.assemble = some 0x200000000000#48 ∧ Asm.setrange15.assemble = some 0x210000000000#48 ∧
  Asm.readOfRaw.assemble = some 0x700000000000#48 ∧ Asm.readOfMps.assemble = some 0x710000000000#48 ∧
  Asm.readOfMph.assemble = some 0x720000000000#48

/-- R102: an operand out of range produces no word; a word that is produced decodes to the command of its statement. What R102
leaves open: log entry 17. -/
def Obligations.AssemblerOperandRanges : Prop :=
  (∀ n, (Asm.interp n).assemble = none ↔ 4095 < n) ∧
  (∀ bytes, (Asm.validate bytes).assemble = none ↔ ¬ (bytes.length = 5 ∧ ∀ b ∈ bytes, b ≤ 255)) ∧
  (∀ bytes, (Asm.decode bytes).assemble = none ↔ ¬ (bytes.length = 5 ∧ ∀ b ∈ bytes, b ≤ 255)) ∧
  (∀ n, (Asm.tomphPattern n).assemble = none ↔ 2 ^ 32 ≤ n) ∧
  (∀ (a : Asm) (w : Word48), a.assemble = some w → ∃ i, a.instr = some i ∧ decode w = .ok i)
end

