-- ==== Sys2Proof/Laws/Float.lean ====
section
/-! SUPPORT. The rounding function of 00_scope.md R11: a quotient's nearest whole number, and that rounding is monotone, leaves a
value of the format alone, gives the nearest value, and is off by at most half the spacing. -/

namespace Sys2Proof.Machine

/-- The nearest whole number is off by at most half, and by exactly half only when it is even. -/
theorem rneQuotient_spec (a : Nat) {b : Nat} (hb : 0 < b) :
    2 * a ≤ (2 * rneQuotient a b + 1) * b ∧ 2 * rneQuotient a b * b ≤ 2 * a + b ∧
    (2 * a = (2 * rneQuotient a b + 1) * b → rneQuotient a b % 2 = 0) ∧
    (2 * rneQuotient a b * b = 2 * a + b → rneQuotient a b % 2 = 0) := by
  have hd := Nat.div_add_mod a b
  have hr := Nat.mod_lt a hb
  generalize a / b = q at *
  generalize a % b = r at *
  have hrq : rneQuotient a b = if 2 * r < b then q else if b < 2 * r then q + 1 else q + q % 2 := by
    unfold rneQuotient
    have e1 : a / b = q := by
      rw [← hd, Nat.mul_add_div hb, Nat.div_eq_of_lt hr, Nat.add_zero]
    have e2 : a % b = r := by
      rw [← hd, Nat.mul_add_mod, Nat.mod_eq_of_lt hr]
    rw [e1, e2]
  rw [hrq, ← hd]
  split_ifs with h1 h2
  · refine ⟨by nlinarith, by nlinarith, fun h => ?_, fun h => ?_⟩ <;> nlinarith
  · refine ⟨by nlinarith, by nlinarith, fun h => ?_, fun h => ?_⟩ <;> nlinarith
  · have hb2 : b = 2 * r := by omega
    subst hb2
    rcases Nat.mod_two_eq_zero_or_one q with h | h
    · rw [h]
      exact ⟨by nlinarith, by nlinarith, fun _ => h, fun _ => h⟩
    · rw [h]
      exact ⟨by nlinarith, by nlinarith, fun _ => by omega, fun _ => by omega⟩

/-- Rounding to whole numbers is monotone. -/
theorem rneQuotient_mono {a b a' b' : Nat} (hb : 0 < b) (hb' : 0 < b') (h : a * b' ≤ a' * b) :
    rneQuotient a b ≤ rneQuotient a' b' := by
  obtain ⟨-, h2, -, h4⟩ := rneQuotient_spec a hb
  obtain ⟨h1', -, h3', -⟩ := rneQuotient_spec a' hb'
  generalize rneQuotient a b = q at *
  generalize rneQuotient a' b' = q' at *
  by_contra hlt
  have hbb : 0 < b * b' := Nat.mul_pos hb hb'
  have e1 : 2 * q * (b * b') ≤ 2 * (a * b') + b * b' := by nlinarith [Nat.mul_le_mul_right b' h2]
  have e2 : 2 * (a' * b) ≤ (2 * q' + 1) * (b * b') := by nlinarith [Nat.mul_le_mul_right b h1']
  have hq : q = q' + 1 := by
    by_contra hne
    have : q' + 2 ≤ q := by omega
    nlinarith
  subst hq
  have t1 : 2 * (q' + 1) * b = 2 * a + b := by
    refine Nat.le_antisymm h2 ?_
    by_contra hc
    nlinarith
  have t2 : 2 * a' = (2 * q' + 1) * b' := by
    refine Nat.le_antisymm h1' ?_
    by_contra hc
    nlinarith
  have := h4 t1
  have := h3' t2
  omega

/-- A whole quotient rounds to itself. -/
theorem rneQuotient_mul (q : Nat) {b : Nat} (hb : 0 < b) : rneQuotient (q * b) b = q := by
  simp [rneQuotient, Nat.mul_div_cancel _ hb, hb]

/-- The binade of `a / b`: how many doublings above the first normal binade it lies. -/
def binade (f : FloatFormat) (a b : Nat) : Nat := Nat.log2 (a / b) - f.fracBits

/-- `roundMag` before overflow is looked at. -/
def roundMagUnbounded (f : FloatFormat) (a b : Nat) : Nat :=
  binade f a b * 2 ^ f.fracBits + rneQuotient a (b * 2 ^ binade f a b)

theorem roundMag_eq (f : FloatFormat) (a b : Nat) : roundMag f a b = min (roundMagUnbounded f a b) f.infinity := rfl

/-- In its binade the rounded significand has at most `fracBits + 1` bits, or is the next power of two. -/
theorem significand_le (f : FloatFormat) (a : Nat) {b : Nat} (hb : 0 < b) :
    rneQuotient a (b * 2 ^ binade f a b) ≤ 2 ^ (f.fracBits + 1) := by
  have hk : a / b < 2 ^ (f.fracBits + 1 + binade f a b) :=
    Nat.lt_of_lt_of_le Nat.lt_log2_self (Nat.pow_le_pow_right (by omega) (by unfold binade; omega))
  have hlt : a < b * 2 ^ (f.fracBits + 1 + binade f a b) := by
    have := Nat.lt_mul_of_div_lt hk hb
    rwa [Nat.mul_comm] at this
  have hp : 0 < b * 2 ^ binade f a b := by positivity
  refine le_trans (rneQuotient_mono hp hp (a' := 2 ^ (f.fracBits + 1) * (b * 2 ^ binade f a b)) ?_) (by rw [rneQuotient_mul _ hp])
  refine Nat.mul_le_mul_right _ (le_of_lt (lt_of_lt_of_eq hlt ?_))
  rw [Nat.pow_add]
  ring

/-- A quotient above the first normal binade is at least the least value of its binade. -/
theorem le_of_binade_pos (f : FloatFormat) (a : Nat) {b : Nat} (hb : 0 < b) (hk : 0 < binade f a b) :
    2 ^ f.fracBits * (b * 2 ^ binade f a b) ≤ a := by
  have hlog : Nat.log2 (a / b) = f.fracBits + binade f a b := by unfold binade at *; omega
  have hne : a / b ≠ 0 := by
    intro h0
    rw [h0] at hlog
    simp at hlog
    omega
  have hle := (Nat.le_div_iff_mul_le hb).1 (hlog ▸ Nat.log2_self_le hne)
  rw [Nat.pow_add] at hle
  calc _ = 2 ^ f.fracBits * 2 ^ binade f a b * b := by ring
    _ ≤ a := hle

/-- Above the first normal binade the rounded significand has its leading bit. -/
theorem le_significand (f : FloatFormat) (a : Nat) {b : Nat} (hb : 0 < b) (hk : 0 < binade f a b) :
    2 ^ f.fracBits ≤ rneQuotient a (b * 2 ^ binade f a b) := by
  have hp : 0 < b * 2 ^ binade f a b := by positivity
  refine le_trans (by rw [rneQuotient_mul _ hp]) (rneQuotient_mono hp hp (a := 2 ^ f.fracBits * (b * 2 ^ binade f a b)) ?_)
  exact Nat.mul_le_mul_right _ (le_of_binade_pos f a hb hk)

/-- Rounding is monotone: a greater quotient does not round to a smaller value. -/
theorem roundMag_mono (f : FloatFormat) {a b a' b' : Nat} (hb : 0 < b) (hb' : 0 < b') (h : a * b' ≤ a' * b) :
    roundMag f a b ≤ roundMag f a' b' := by
  have hdiv : a / b ≤ a' / b' := by
    rw [Nat.le_div_iff_mul_le hb']
    have h1 : a / b * b ≤ a := Nat.div_mul_le_self a b
    have : a / b * b' * b ≤ a' * b := by nlinarith
    exact Nat.le_of_mul_le_mul_right this hb
  have hk : binade f a b ≤ binade f a' b' := by
    unfold binade
    have : Nat.log2 (a / b) ≤ Nat.log2 (a' / b') := by
      rw [Nat.log2_eq_log_two, Nat.log2_eq_log_two]
      exact Nat.log_mono_right hdiv
    omega
  rw [roundMag_eq, roundMag_eq]
  refine min_le_min_right _ ?_
  unfold roundMagUnbounded
  rcases Nat.eq_or_lt_of_le hk with he | hlt
  · rw [← he]
    refine Nat.add_le_add_left (rneQuotient_mono (by positivity) (by positivity) ?_) _
    have := Nat.mul_le_mul_right (2 ^ binade f a b) h
    nlinarith
  · have h1 := significand_le f a hb
    have h2 := le_significand f a' hb' (by omega)
    have h3 : (binade f a b + 2) * 2 ^ f.fracBits ≤ (binade f a' b' + 1) * 2 ^ f.fracBits :=
      Nat.mul_le_mul_right _ (by omega)
    rw [Nat.pow_succ] at h1
    nlinarith

/-- Rounding depends on the quotient alone. -/
theorem roundMag_congr (f : FloatFormat) {a b a' b' : Nat} (hb : 0 < b) (hb' : 0 < b') (h : a * b' = a' * b) :
    roundMag f a b = roundMag f a' b' :=
  le_antisymm (roundMag_mono f hb hb' h.le) (roundMag_mono f hb' hb h.ge)

/-- A value of the format rounds to itself. -/
theorem roundMag_magUnits (f : FloatFormat) {p b : Nat} (hb : 0 < b) (hp : p < f.infinity) :
    roundMag f (magUnits f p * b) b = p := by
  rw [roundMag_eq]
  suffices h : roundMagUnbounded f (magUnits f p * b) b = p by rw [h]; omega
  have hF : 0 < 2 ^ f.fracBits := by positivity
  have hdm := Nat.div_add_mod p (2 ^ f.fracBits)
  have hml := Nat.mod_lt p hF
  unfold roundMagUnbounded binade
  rw [Nat.mul_div_cancel _ hb]
  unfold magUnits
  split_ifs with h0
  · have hpl : p < 2 ^ f.fracBits := by
      rw [h0] at hdm
      omega
    have hk : Nat.log2 p - f.fracBits = 0 := by
      rcases Nat.eq_zero_or_pos p with rfl | hpos
      · simp
      · have := (Nat.log2_lt (by omega)).2 hpl
        omega
    rw [hk]
    simp [rneQuotient_mul p hb]
  · generalize p / 2 ^ f.fracBits = e at *
    generalize p % 2 ^ f.fracBits = r at *
    have hlog : Nat.log2 ((2 ^ f.fracBits + r) * 2 ^ (e - 1)) = f.fracBits + (e - 1) := by
      rw [Nat.log2_eq_log_two]
      refine Nat.log_eq_of_pow_le_of_lt_pow ?_ ?_
      · rw [Nat.pow_add]
        exact Nat.mul_le_mul_right _ (by omega)
      · rw [show f.fracBits + (e - 1) + 1 = f.fracBits + 1 + (e - 1) by omega, Nat.pow_add]
        exact Nat.mul_lt_mul_of_pos_right (by rw [Nat.pow_succ]; omega) (by positivity)
    rw [hlog, Nat.add_sub_cancel_left]
    rw [show (2 ^ f.fracBits + r) * 2 ^ (e - 1) * b = (2 ^ f.fracBits + r) * (b * 2 ^ (e - 1)) by ring,
      rneQuotient_mul _ (by positivity)]
    obtain ⟨m, rfl⟩ : ∃ m, e = m + 1 := ⟨e - 1, by omega⟩
    rw [Nat.add_sub_cancel, ← hdm]
    ring

/-- A quotient at most a value of the format rounds to at most that value. -/
theorem roundMag_le (f : FloatFormat) {a b p : Nat} (hb : 0 < b) (hp : p < f.infinity) (h : a ≤ magUnits f p * b) :
    roundMag f a b ≤ p :=
  calc roundMag f a b ≤ roundMag f (magUnits f p * b) b := roundMag_mono f hb hb (Nat.mul_le_mul_right b h)
    _ = p := roundMag_magUnits f hb hp

/-- A quotient at least a value of the format rounds to at least that value. -/
theorem le_roundMag (f : FloatFormat) {a b p : Nat} (hb : 0 < b) (hp : p < f.infinity) (h : magUnits f p * b ≤ a) :
    p ≤ roundMag f a b :=
  calc p = roundMag f (magUnits f p * b) b := (roundMag_magUnits f hb hp).symm
    _ ≤ roundMag f a b := roundMag_mono f hb hb (Nat.mul_le_mul_right b h)

/-- Greater magnitude patterns have greater values. -/
theorem magUnits_mono (f : FloatFormat) {p q : Nat} (hq : q < f.infinity) (h : p ≤ q) : magUnits f p ≤ magUnits f q := by
  by_contra hc
  have h1 := roundMag_le f (a := magUnits f q) (b := 1) (p := p) (by omega) (by omega) (by omega)
  have h2 := roundMag_magUnits f (p := q) (b := 1) (by omega) hq
  rw [Nat.mul_one] at h2
  obtain rfl : p = q := by omega
  exact hc le_rfl

/-- The value of a pattern given by its binade and its significand, hidden bit included. -/
theorem magUnits_significand (f : FloatFormat) {k q : Nat} (hq : q ≤ 2 ^ (f.fracBits + 1))
    (hk : 0 < k → 2 ^ f.fracBits ≤ q) : magUnits f (k * 2 ^ f.fracBits + q) = q * 2 ^ k := by
  have hF : 0 < 2 ^ f.fracBits := by positivity
  rw [Nat.pow_succ] at hq
  rw [magUnits]
  generalize 2 ^ f.fracBits = F at *
  rcases Nat.lt_or_ge q F with h | h
  · obtain rfl : k = 0 := by omega
    simp [Nat.div_eq_of_lt h]
  · rcases Nat.lt_or_ge q (2 * F) with h2 | h2
    · have e : k * F + q = (q - F) + (k + 1) * F := by rw [Nat.add_mul]; omega
      rw [e, Nat.add_mul_div_right _ _ hF, Nat.add_mul_mod_self_right, Nat.div_eq_of_lt (by omega), Nat.mod_eq_of_lt (by omega)]
      simp [Nat.add_sub_cancel' h]
    · obtain rfl : q = F * 2 := by omega
      have e : k * F + F * 2 = 0 + (k + 2) * F := by rw [Nat.add_mul]; omega
      rw [e, Nat.add_mul_div_right _ _ hF, Nat.add_mul_mod_self_right, Nat.zero_div, Nat.zero_mod]
      simp [Nat.pow_succ]
      rw [Nat.mul_comm (2^k) 2, Nat.mul_assoc]

/-- What a rounded magnitude is worth: the rounded significand times the spacing of its binade. -/
theorem magUnits_roundMagUnbounded (f : FloatFormat) (a : Nat) {b : Nat} (hb : 0 < b) :
    magUnits f (roundMagUnbounded f a b) = rneQuotient a (b * 2 ^ binade f a b) * 2 ^ binade f a b :=
  magUnits_significand f (significand_le f a hb) (le_significand f a hb)

/-- Every value of the format is a multiple of the spacing of binade `k`, or lies below that binade. -/
theorem magUnits_grid (f : FloatFormat) (p k : Nat) :
    (∃ j, magUnits f p = j * 2 ^ k) ∨ magUnits f p < 2 ^ f.fracBits * 2 ^ k := by
  have hF : 0 < 2 ^ f.fracBits := by positivity
  have hm := Nat.mod_lt p hF
  rw [magUnits]
  split_ifs with h
  · have : p < 2 ^ f.fracBits := (Nat.div_eq_zero_iff_lt hF).1 h
    exact .inr (lt_of_lt_of_le this (Nat.le_mul_of_pos_right _ (by positivity)))
  · rcases Nat.lt_or_ge (p / 2 ^ f.fracBits - 1) k with hk | hk
    · right
      obtain ⟨d, rfl⟩ := Nat.exists_eq_add_of_lt hk
      rw [show p / 2 ^ f.fracBits - 1 + d + 1 = (p / 2 ^ f.fracBits - 1) + (d + 1) by omega, Nat.pow_add, Nat.pow_succ 2 d]
      have h2 : 0 < 2 ^ (p / 2 ^ f.fracBits - 1) := by positivity
      have h3 : 0 < 2 ^ d := by positivity
      generalize 2 ^ (p / 2 ^ f.fracBits - 1) = K at *
      calc _ < 2 ^ f.fracBits * (K * 2) := by nlinarith
        _ ≤ _ := Nat.mul_le_mul_left _ (by nlinarith)
    · obtain ⟨d, hd⟩ := Nat.exists_eq_add_of_le hk
      exact .inl ⟨(2 ^ f.fracBits + p % 2 ^ f.fracBits) * 2 ^ d, by rw [hd, Nat.pow_add]; ring⟩

/-- No value of the format is nearer to a quotient than the one it rounds to, and at a tie the pattern rounded to is even. -/
theorem roundMag_nearest (f : FloatFormat) (hF : 0 < f.fracBits) {a b : Nat} (hb : 0 < b) (hfin : roundMag f a b < f.infinity)
    {p : Nat} (hp : p < f.infinity) :
    |(a : Int) - magUnits f (roundMag f a b) * b| ≤ |(a : Int) - magUnits f p * b| ∧
    (|(a : Int) - magUnits f (roundMag f a b) * b| = |(a : Int) - magUnits f p * b| → p ≠ roundMag f a b →
      roundMag f a b % 2 = 0) := by
  have e : roundMag f a b = roundMagUnbounded f a b := by
    rw [roundMag_eq] at *
    omega
  have hval := magUnits_roundMagUnbounded f a hb
  rw [← e] at hval
  have hpar : roundMag f a b % 2 = rneQuotient a (b * 2 ^ binade f a b) % 2 := by
    obtain ⟨g, hg⟩ : ∃ g, 2 ^ f.fracBits = 2 * g := ⟨2 ^ (f.fracBits - 1), by
      rw [← Nat.pow_succ', Nat.succ_eq_add_one, Nat.sub_add_cancel hF]⟩
    rw [e, roundMagUnbounded, hg, Nat.mul_left_comm, Nat.mul_add_mod]
  have hinj : p ≠ roundMag f a b → magUnits f p ≠ magUnits f (roundMag f a b) := fun hne he => hne (by
    have h1 := roundMag_magUnits f (p := p) (b := 1) (by omega) hp
    rw [he, roundMag_magUnits f (by omega) hfin] at h1
    exact h1.symm)
  have hK : 0 < b * 2 ^ binade f a b := by positivity
  obtain ⟨h1, h2, h3, h4⟩ := rneQuotient_spec a hK
  rw [hpar]
  rw [hval] at *
  have hlow := le_of_binade_pos f a hb
  have hsig := le_significand f a hb
  have hgrid := magUnits_grid f p (binade f a b)
  generalize rneQuotient a (b * 2 ^ binade f a b) = q at *
  generalize roundMag f a b = r at *
  have hmul : ∀ j : Nat, ((j * 2 ^ binade f a b : Nat) : Int) * b = j * (b * 2 ^ binade f a b : Nat) := fun j => by
    push_cast
    ring
  rw [hmul]
  have near : ∀ j : Nat, |(a : Int) - q * (b * 2 ^ binade f a b : Nat)| ≤ |(a : Int) - j * (b * 2 ^ binade f a b : Nat)| ∧
      (|(a : Int) - q * (b * 2 ^ binade f a b : Nat)| = |(a : Int) - j * (b * 2 ^ binade f a b : Nat)| → j ≠ q → q % 2 = 0) := by
    intro j
    generalize b * 2 ^ binade f a b = B at *
    rcases Nat.lt_trichotomy j q with hj | rfl | hj
    · have : ((j * B + B : Nat) : Int) ≤ (q * B : Nat) := by exact_mod_cast (by nlinarith : j * B + B ≤ q * B)
      push_cast at this
      have h2' : 2 * ((q : Int) * B) ≤ 2 * a + B := by exact_mod_cast (by linarith : 2 * (q * B) ≤ 2 * a + B)
      have h1' : 2 * (a : Int) ≤ 2 * (q * B) + B := by exact_mod_cast (by linarith : 2 * a ≤ 2 * (q * B) + B)
      rw [abs_of_nonneg (a := (a : Int) - j * B) (by linarith)]
      refine ⟨abs_le.2 ⟨by linarith, by linarith⟩, fun he _ => h4 ?_⟩
      have : 2 * (q * B : Nat) = ((2 * a + B : Nat) : Int) := by
        push_cast
        rcases abs_choice ((a : Int) - q * B) with hc | hc <;> rw [hc] at he <;> linarith
      have : 2 * (q * B) = 2 * a + B := by exact_mod_cast this
      linarith
    · exact ⟨le_rfl, fun _ hn => absurd rfl hn⟩
    · have : ((q * B + B : Nat) : Int) ≤ (j * B : Nat) := by exact_mod_cast (by nlinarith : q * B + B ≤ j * B)
      push_cast at this
      have h2' : 2 * ((q : Int) * B) ≤ 2 * a + B := by exact_mod_cast (by linarith : 2 * (q * B) ≤ 2 * a + B)
      have h1' : 2 * (a : Int) ≤ 2 * (q * B) + B := by exact_mod_cast (by linarith : 2 * a ≤ 2 * (q * B) + B)
      rw [abs_of_nonpos (a := (a : Int) - j * B) (by linarith)]
      refine ⟨abs_le.2 ⟨by linarith, by linarith⟩, fun he _ => h3 ?_⟩
      have : 2 * (a : Int) = ((2 * (q * B) + B : Nat) : Int) := by
        push_cast
        rcases abs_choice ((a : Int) - q * B) with hc | hc <;> rw [hc] at he <;> linarith
      have : 2 * a = 2 * (q * B) + B := by exact_mod_cast this
      linarith
  by_cases hj : ∃ j, magUnits f p = j * 2 ^ binade f a b
  · obtain ⟨j, hj⟩ := hj
    rw [hj, hmul]
    refine ⟨(near j).1, fun he hne => (near j).2 he ?_⟩
    rintro rfl
    exact hinj hne hj
  · have hm := hgrid.resolve_left hj
    have hk : 0 < binade f a b := by
      refine Nat.pos_of_ne_zero fun h0 => hj ⟨magUnits f p, ?_⟩
      rw [h0, Nat.pow_zero, Nat.mul_one]
    have hlt : ((magUnits f p * b : Nat) : Int) < (2 ^ f.fracBits * (b * 2 ^ binade f a b) : Nat) := by
      exact_mod_cast lt_of_lt_of_eq (Nat.mul_lt_mul_of_pos_right hm hb) (by ring)
    have hle : ((2 ^ f.fracBits * (b * 2 ^ binade f a b) : Nat) : Int) ≤ a := by exact_mod_cast hlow hk
    have hn := (near (2 ^ f.fracBits)).1
    push_cast at hlt hle hn ⊢
    rw [abs_of_nonneg (a := (a : Int) - 2 ^ f.fracBits * (b * 2 ^ binade f a b)) (by linarith)] at hn
    rw [abs_of_nonneg (a := (a : Int) - magUnits f p * b) (by linarith)]
    exact ⟨by linarith, fun he => by linarith⟩

/-- Rounding moves a quotient below `2 ^ (fracBits + 1 + k)` units by at most half of `2 ^ k` units. -/
theorem roundMag_error (f : FloatFormat) {a b k : Nat} (hb : 0 < b) (h : a < 2 ^ (f.fracBits + 1 + k) * b)
    (hfin : roundMag f a b < f.infinity) :
    2 * (magUnits f (roundMag f a b) * b) ≤ 2 * a + 2 ^ k * b ∧ 2 * a ≤ 2 * (magUnits f (roundMag f a b) * b) + 2 ^ k * b := by
  have e : roundMag f a b = roundMagUnbounded f a b := by
    rw [roundMag_eq] at *
    omega
  rw [e, magUnits_roundMagUnbounded f a hb]
  have hbin : binade f a b ≤ k := by
    have : a / b < 2 ^ (f.fracBits + 1 + k) := by
      rw [Nat.div_lt_iff_lt_mul hb]
      exact h
    unfold binade
    rcases Nat.eq_zero_or_pos (a / b) with h0 | h0
    · simp [h0]
    · have := (Nat.log2_lt (by omega)).2 this
      omega
  have hle : 2 ^ binade f a b ≤ 2 ^ k := Nat.pow_le_pow_right (by omega) hbin
  have hK : 0 < 2 ^ binade f a b := by positivity
  obtain ⟨h1, h2, -, -⟩ := rneQuotient_spec a (Nat.mul_pos hb hK)
  generalize 2 ^ binade f a b = K at *
  generalize rneQuotient a (b * K) = q at *
  have hm : K * b ≤ 2 ^ k * b := Nat.mul_le_mul_right b hle
  constructor <;> nlinarith
/-- The infinity pattern of binary32. -/
theorem infinity32 : binary32.infinity = 0x7F800000 := by decide

/-- A rounded magnitude fits the 31 bits below the sign. -/
theorem roundMag32_le (a b : Nat) : roundMag binary32 a b ≤ 0x7F800000 := by
  rw [roundMag_eq, infinity32]
  omega

/-- The sign of a packed value. -/
@[simp] theorem signBit_pack32 (neg : Bool) (mag : Nat) : signBit (pack32 neg mag) = neg := by
  rw [signBit, pack32, BitVec.getLsbD_append]
  simp

/-- The magnitude of a packed value. -/
theorem magBits_pack32 (neg : Bool) {mag : Nat} (h : mag < 2 ^ 31) : magBits (pack32 neg mag) = mag := by
  rw [magBits, pack32, BitVec.toNat_append, BitVec.toNat_ofNat, Nat.mod_eq_of_lt h, Nat.shiftLeft_eq,
    Nat.mul_comm, ← Nat.two_pow_add_eq_or_of_lt h]
  omega

/-- A value is its sign and its magnitude. -/
theorem pack32_self (v : F32) : pack32 (signBit v) (magBits v) = v := by
  apply BitVec.eq_of_getLsbD_eq
  intro i hi
  rw [pack32, BitVec.getLsbD_append]
  by_cases h : i < 31
  · rw [if_pos h, BitVec.getLsbD_ofNat, magBits, Nat.testBit_mod_two_pow]
    simp [h, BitVec.getLsbD]
  · obtain rfl : i = 31 := by omega
    simp [signBit]

/-- A value is finite iff its magnitude lies below infinity. -/
theorem isFinite_iff (v : F32) : isFinite v = true ↔ magBits v < 0x7F800000 := by
  have hv := v.isLt
  simp only [isFinite, expField, magBits, bne_iff_ne, ne_eq, ← BitVec.toNat_inj, BitVec.extractLsb'_toNat,
    Nat.shiftRight_eq_div_pow, BitVec.toNat_ofNat]
  omega

/-- A rounded signed quotient that is not zero depends on the quotient alone. -/
theorem roundUnits_congr {z z' : Bool} {n m : Int} {d e : Nat} (hd : 0 < d) (he : 0 < e) (hn : n ≠ 0) (h : n * e = m * d) :
    roundUnits z n d = roundUnits z' m e := by
  have hd' : (0 : Int) < d := by omega
  have he' : (0 : Int) < e := by omega
  have hm : m ≠ 0 := by
    rintro rfl
    rw [zero_mul] at h
    exact (mul_ne_zero hn he'.ne') h
  have hs : (n < 0 ↔ m < 0) := by
    constructor <;> intro hneg <;> nlinarith
  have hr : roundMag binary32 n.natAbs d = roundMag binary32 m.natAbs e :=
    roundMag_congr _ hd he (by simpa [Int.natAbs_mul] using congrArg Int.natAbs h)
  rw [roundUnits, roundUnits, if_neg hn, if_neg hm, decide_eq_decide.2 hs, hr]
end Sys2Proof.Machine
end

