-- ==== Sys2Proof/Laws/Rom.lean ====
section
/-! SUPPORT. The tables of an instance (00_scope.md R7) and the bracket scan (43_conversion.md R191). -/

namespace Sys2Proof.Machine

/-- Every table an instance holds passes the check of R7. -/
theorem table_ok (c : Config) (p : Profile) : tableOk p (c.table p) = true := by
  cases p
  · exact c.ok7
  · exact c.ok15

/-- What the check of R7 says, clause by clause. -/
theorem tableOk_spec {p : Profile} {t : List Point} (h : tableOk p t = true) :
    t.length = p.size ∧ t.head?.map Point.raw = some 409#12 ∧ t.getLast?.map Point.raw = some 3686#12 ∧
    t.getLast?.map Point.vel = some p.ceiling ∧ t.Pairwise (fun a b => a.raw < b.raw) ∧
    t.Pairwise (fun a b => toUnits a.vel ≤ toUnits b.vel) ∧
    ∀ a ∈ t, isFinite a.vel = true ∧ 0 ≤ toUnits a.vel := by
  simp only [tableOk, Bool.and_eq_true, beq_iff_eq, decide_eq_true_eq, List.all_eq_true] at h
  obtain ⟨⟨⟨⟨⟨⟨h1, h2⟩, h3⟩, h4⟩, h5⟩, h6⟩, h7⟩ := h
  exact ⟨h1, h2, h3, h4, h5, h6, h7⟩

/-- The number of points of a table (R61). -/
@[simp] theorem table_length (c : Config) (p : Profile) : (c.table p).length = p.size :=
  (tableOk_spec (table_ok c p)).1

/-- Raw points rise strictly with their index (R7). -/
theorem table_raw_lt (c : Config) (p : Profile) {j k : Nat} {a b : Point} (hj : romRead c p j = some a)
    (hk : romRead c p k = some b) (h : j < k) : a.raw < b.raw := by
  have hp := (tableOk_spec (table_ok c p)).2.2.2.2.1
  obtain ⟨hj', rfl⟩ := List.getElem?_eq_some_iff.1 hj
  obtain ⟨hk', rfl⟩ := List.getElem?_eq_some_iff.1 hk
  exact List.pairwise_iff_getElem.1 hp j k hj' hk' h

/-- Velocities do not fall with their index (R7). -/
theorem table_vel_le (c : Config) (p : Profile) {j k : Nat} {a b : Point} (hj : romRead c p j = some a)
    (hk : romRead c p k = some b) (h : j < k) : toUnits a.vel ≤ toUnits b.vel := by
  have hp := (tableOk_spec (table_ok c p)).2.2.2.2.2.1
  obtain ⟨hj', rfl⟩ := List.getElem?_eq_some_iff.1 hj
  obtain ⟨hk', rfl⟩ := List.getElem?_eq_some_iff.1 hk
  exact List.pairwise_iff_getElem.1 hp j k hj' hk' h

/-- Every velocity is finite and non-negative (R7). -/
theorem table_vel_ok (c : Config) (p : Profile) {k : Nat} {a : Point} (hk : romRead c p k = some a) :
    isFinite a.vel = true ∧ 0 ≤ toUnits a.vel :=
  (tableOk_spec (table_ok c p)).2.2.2.2.2.2 a (List.mem_of_getElem? hk)

/-- The first point has raw value 409 in both profiles (R7). -/
theorem romRead_first (c : Config) (p : Profile) : ∃ v, romRead c p 0 = some ⟨409#12, v⟩ := by
  have h := (tableOk_spec (table_ok c p)).2.1
  rw [List.head?_eq_getElem?, Option.map_eq_some_iff] at h
  obtain ⟨a, ha, hr⟩ := h
  exact ⟨a.vel, by rw [romRead, ha, ← hr]⟩

/-- The last point is 3686 with the ceiling velocity of its profile (R7). -/
theorem romRead_last (c : Config) (p : Profile) : romRead c p (p.size - 1) = some ⟨3686#12, p.ceiling⟩ := by
  have h3 := (tableOk_spec (table_ok c p)).2.2.1
  have h4 := (tableOk_spec (table_ok c p)).2.2.2.1
  rw [List.getLast?_eq_getElem?, table_length, Option.map_eq_some_iff] at h3 h4
  obtain ⟨a, ha, hr⟩ := h3
  obtain ⟨b, hb, hv⟩ := h4
  obtain rfl : a = b := Option.some.inj (ha.symm.trans hb)
  rw [romRead, ha, ← hr, ← hv]

/-- `RomRead` is total on its domain (R64). -/
theorem romRead_isSome (c : Config) (p : Profile) {k : Nat} (h : k < p.size) : ∃ a, romRead c p k = some a :=
  ⟨(c.table p)[k]'(by simpa using h), List.getElem?_eq_getElem _⟩

/-- The scan from index `k` with candidate `i`: the candidate stands if no later point lies below `raw`, and otherwise the
result is the last index whose point does. -/
theorem scanFrom_spec (raw : Raw) (t : List Point) : ∀ k i : Nat,
    (scanFrom raw t k i = i ∧ ∀ (j : Nat) (a : Point), t[j]? = some a → ¬ a.raw < raw) ∨
    (∃ (j : Nat) (a : Point), scanFrom raw t k i = k + j ∧ t[j]? = some a ∧ a.raw < raw ∧
      ∀ (j' : Nat) (b : Point), j < j' → t[j']? = some b → ¬ b.raw < raw) := by
  induction t with
  | nil => exact fun k i => .inl ⟨rfl, by simp⟩
  | cons p ps ih =>
    intro k i
    rcases ih (k + 1) (if p.raw < raw then k else i) with ⟨he, hn⟩ | ⟨j, a, he, ha, hlt, hn⟩
    · by_cases hp : p.raw < raw
      · refine .inr ⟨0, p, by simpa [scanFrom, hp] using he, rfl, hp, fun j' b hj hb => ?_⟩
        obtain ⟨m, rfl⟩ : ∃ m, j' = m + 1 := ⟨j' - 1, by omega⟩
        exact hn m b hb
      · refine .inl ⟨by simpa [scanFrom, hp] using he, fun j a hj => ?_⟩
        cases j with
        | zero => simpa [← Option.some.inj hj] using hp
        | succ m => exact hn m a hj
    · refine .inr ⟨j + 1, a, by rw [scanFrom, he]; omega, ha, hlt, fun j' b hj hb => ?_⟩
      obtain ⟨m, rfl⟩ : ∃ m, j' = m + 1 := ⟨j' - 1, by omega⟩
      exact hn m b (by omega) hb

/-- An index whose point lies below `raw` and whose next point does not is the bracket the scan finds (R191, R192). -/
theorem bracket_unique (c : Config) (p : Profile) {raw : Raw} {i : Nat} {lo hi : Point}
    (hlo : romRead c p i = some lo) (hhi : romRead c p (i + 1) = some hi) (h1 : lo.raw < raw) (h2 : raw ≤ hi.raw) :
    bracket raw (c.table p) = i := by
  rcases scanFrom_spec raw (c.table p) 0 0 with ⟨_, hn⟩ | ⟨j, a, he, ha, hlt, hn⟩
  · exact absurd h1 (hn i lo hlo)
  · rw [bracket, he, Nat.zero_add]
    rcases Nat.lt_trichotomy j i with h | h | h
    · exact absurd h1 (hn i lo h hlo)
    · exact h
    · rcases Nat.lt_or_ge (i + 1) j with h' | h'
      · have := table_raw_lt c p hhi ha h'
        bv_omega
      · obtain rfl : j = i + 1 := by omega
        obtain rfl : a = hi := Option.some.inj (ha.symm.trans hhi)
        bv_omega

/-- Between the end points the scan finds a bracket inside the ROM, and the raw value lies in it (R192). -/
theorem bracket_found (c : Config) (p : Profile) {raw : Raw} (h1 : 409#12 < raw) (h2 : raw < 3686#12) :
    ∃ lo hi, romRead c p (bracket raw (c.table p)) = some lo ∧ romRead c p (bracket raw (c.table p) + 1) = some hi ∧
      lo.raw < raw ∧ raw ≤ hi.raw := by
  obtain ⟨v, hf⟩ := romRead_first c p
  have hl := romRead_last c p
  rcases scanFrom_spec raw (c.table p) 0 0 with ⟨_, hn⟩ | ⟨j, a, he, ha, hlt, hn⟩
  · exact absurd h1 (hn 0 _ hf)
  · rw [Nat.zero_add] at he
    have hj : j < p.size := by simpa using (List.getElem?_eq_some_iff.1 ha).1
    have hne : j ≠ p.size - 1 := by
      rintro rfl
      obtain rfl : _ = a := Option.some.inj (hl.symm.trans ha)
      have : (3686#12 : BitVec 12) < raw := hlt
      bv_omega
    obtain ⟨hi, hhi⟩ := romRead_isSome c p (k := j + 1) (by omega)
    refine ⟨a, hi, by rw [bracket, he]; exact ha, by rw [bracket, he]; exact hhi, hlt, ?_⟩
    have := hn (j + 1) hi (by omega) hhi
    bv_omega

/-- At and below 409 the engine gives `+0.0` (R191 step 1). -/
theorem interp_floor (c : Config) (p : Profile) {raw : Raw} (h : raw ≤ 409#12) : interp c p raw = some 0#32 := by
  obtain ⟨v, hf⟩ := romRead_first c p
  simp [interp, hf, romRead_last c p, h]

/-- At and above 3686 the engine gives the stored ceiling (R191 step 2). -/
theorem interp_ceiling (c : Config) (p : Profile) {raw : Raw} (h : 3686#12 ≤ raw) : interp c p raw = some p.ceiling := by
  obtain ⟨v, hf⟩ := romRead_first c p
  have h' : ¬ raw ≤ 409#12 := by bv_omega
  simp [interp, hf, romRead_last c p, h, h']

/-- In a bracket the engine interpolates on it (R191 steps 3 and 4). -/
theorem interp_bracket (c : Config) (p : Profile) {raw : Raw} {i : Nat} {lo hi : Point}
    (hlo : romRead c p i = some lo) (hhi : romRead c p (i + 1) = some hi) (h1 : lo.raw < raw) (h2 : raw ≤ hi.raw)
    (h3 : raw < 3686#12) : interp c p raw = some (interpolate c raw lo hi) := by
  obtain ⟨v, hf⟩ := romRead_first c p
  have h409 : 409#12 ≤ lo.raw := by
    rcases Nat.eq_zero_or_pos i with rfl | hi0
    · obtain rfl : _ = lo := Option.some.inj (hf.symm.trans hlo)
      exact BitVec.le_refl _
    · have := table_raw_lt c p hf hlo hi0
      bv_omega
  have ha : ¬ raw ≤ 409#12 := by bv_omega
  have hb : ¬ 3686#12 ≤ raw := by bv_omega
  simp [interp, hf, romRead_last c p, ha, hb, bracket_unique c p hlo hhi h1 h2, hlo, hhi]

/-- The engine never reads the ROM outside its domain (R64, R192). -/
theorem interp_isSome (c : Config) (p : Profile) (raw : Raw) : ∃ v, interp c p raw = some v := by
  by_cases h1 : raw ≤ 409#12
  · exact ⟨_, interp_floor c p h1⟩
  · by_cases h2 : 3686#12 ≤ raw
    · exact ⟨_, interp_ceiling c p h2⟩
    · obtain ⟨lo, hi, hlo, hhi, ha, hb⟩ := bracket_found c p (raw := raw) (by bv_omega) (by bv_omega)
      exact ⟨_, interp_bracket c p hlo hhi ha hb (by bv_omega)⟩

end Sys2Proof.Machine
end

