-- ==== Sys2Proof/Laws/Convert.lean ====
section
/-! SUPPORT. What the binary32 operations give on non-negative finite operands, and that the interpolation engine stays among
those (43_conversion.md R192, R194). -/

namespace Sys2Proof.Machine

/-- The sign and the magnitude of a rounded result. -/
theorem roundUnits_parts (z : Bool) (num : Int) (den : Nat) :
    signBit (roundUnits z num den) = (if num = 0 then z else decide (num < 0)) ∧
    magBits (roundUnits z num den) = roundMag binary32 num.natAbs den := by
  have h := roundMag32_le num.natAbs den
  exact ⟨signBit_pack32 _ _, magBits_pack32 _ (by omega)⟩

/-- A finite value without the minus sign. -/
def Plain (v : F32) : Prop := isFinite v = true ∧ signBit v = false

/-- A plain value's units are its magnitude's. -/
theorem Plain.toUnits {v : F32} (h : Plain v) : toUnits v = absUnits v := by simp [Machine.toUnits, h.2]

/-- A plain value lies below infinity. -/
theorem Plain.lt {v : F32} (h : Plain v) : magBits v < binary32.infinity := by
  rw [infinity32]
  exact (isFinite_iff v).1 h.1

/-- A result of a plain operation is plain when its exact value is at most a finite magnitude `p`, and then at most `p`. -/
theorem plain_round {z : Bool} {num : Int} {den p : Nat} (hd : 0 < den) (h0 : 0 ≤ num) (hz : num = 0 → z = false)
    (hp : p < binary32.infinity) (h : num.natAbs ≤ magUnits binary32 p * den) :
    Plain (roundUnits z num den) ∧ magBits (roundUnits z num den) ≤ p := by
  have hm := roundMag_le binary32 hd hp h
  rw [infinity32] at hp
  obtain ⟨h1, h2⟩ := roundUnits_parts z num den
  refine ⟨⟨(isFinite_iff _).2 (by omega), ?_⟩, by omega⟩
  rw [h1]
  split_ifs with hn
  · exact hz hn
  · simp
    omega

/-- `i2f` of a natural number grows with it. -/
theorem i2f_mono {m n : Nat} (h : m ≤ n) : magBits (i2f m) ≤ magBits (i2f n) := by
  have e : ∀ k : Nat, magBits (i2f k) = roundMag binary32 (k * one32) 1 := fun k => by
    rw [i2f, rne32, (roundUnits_parts _ _ _).2]
    congr 1
  rw [e, e]
  exact roundMag_mono binary32 (by omega) (by omega) (by
    rw [Nat.mul_one, Nat.mul_one]
    exact Nat.mul_le_mul_right _ h)

/-- `i2f` of a 12-bit natural number is plain. -/
theorem i2f_plain {n : Nat} (h : n ≤ 4095) : Plain (i2f n) := by
  refine (plain_round (p := 0x457FF000) (by omega) (by positivity) (fun _ => rfl) (by decide) ?_).1
  rw [show magUnits binary32 0x457FF000 = 4095 * one32 by decide, Int.natAbs_mul, Int.natAbs_natCast, Int.natAbs_natCast,
    Nat.mul_one]
  exact Nat.mul_le_mul_right _ h

/-- A positive integer is at least 1 in units, so a divisor made by `i2f` is not zero (R192). -/
theorem one32_le_i2f {n : Nat} (h1 : 1 ≤ n) (h : n ≤ 4095) : one32 ≤ absUnits (i2f n) := by
  have h2 := magUnits_mono binary32 (i2f_plain h).lt (i2f_mono h1)
  rwa [show magUnits binary32 (magBits (i2f (1 : Nat))) = one32 by decide] at h2

/-- The fraction of a bracket is plain and at most 1.0 (R192). -/
theorem fdiv_plain {num den : Nat} (h1 : 1 ≤ num) (h2 : num ≤ den) (h3 : den ≤ 4095) :
    Plain (fdiv (i2f num) (i2f den)) ∧ magBits (fdiv (i2f num) (i2f den)) ≤ 0x3F800000 := by
  have hd : 0 < absUnits (i2f den) := lt_of_lt_of_le (by decide) (one32_le_i2f (by omega) h3)
  have hn : absUnits (i2f num) ≤ absUnits (i2f den) := magUnits_mono binary32 (i2f_plain h3).lt (i2f_mono h2)
  have hr : roundMag binary32 (absUnits (i2f num) * one32) (absUnits (i2f den)) ≤ 0x3F800000 :=
    roundMag_le binary32 hd (by decide) (by
      rw [show magUnits binary32 0x3F800000 = one32 by decide, Nat.mul_comm]
      exact Nat.mul_le_mul_left _ hn)
  have hm : magBits (fdiv (i2f num) (i2f den)) = roundMag binary32 (absUnits (i2f num) * one32) (absUnits (i2f den)) :=
    magBits_pack32 _ (by omega)
  refine ⟨⟨(isFinite_iff _).2 (by omega), ?_⟩, by omega⟩
  rw [fdiv, signBit_pack32, (i2f_plain (by omega : num ≤ 4095)).2, (i2f_plain h3).2]
  rfl

/-- Interpolation on a bracket of velocities at most 15.0 is plain, with one rounding of the multiply-accumulate or two (R194). -/
theorem mac_plain {num den : Nat} (h1 : 1 ≤ num) (h2 : num ≤ den) (h3 : den ≤ 4095) {lo hi : F32} (fused : Bool)
    (h0 : 0 ≤ toUnits lo) (hle : toUnits lo ≤ toUnits hi)
    (hc : toUnits hi ≤ magUnits binary32 0x41700000) :
    Plain (if fused then fma (fdiv (i2f num) (i2f den)) (fsub hi lo) lo
      else fadd lo (fmul (fdiv (i2f num) (i2f den)) (fsub hi lo))) := by
  obtain ⟨ht, ht1⟩ := fdiv_plain h1 h2 h3
  generalize fdiv (i2f num) (i2f den) = t at *
  have htu : absUnits t ≤ one32 := by
    have := magUnits_mono binary32 (q := 0x3F800000) (by decide) ht1
    rwa [show magUnits binary32 0x3F800000 = one32 by decide] at this
  have hdm : roundMag binary32 (toUnits hi - toUnits lo).natAbs 1 ≤ 0x41700000 :=
    roundMag_le binary32 (by omega) (by decide) (by omega)
  have hdb := (roundUnits_parts (signBit hi && !signBit lo) (toUnits hi - toUnits lo) 1).2
  have hds := (roundUnits_parts (signBit hi && !signBit lo) (toUnits hi - toUnits lo) 1).1
  rw [← fsub] at hdb hds
  have hdu : absUnits (fsub hi lo) ≤ magUnits binary32 0x41700000 := magUnits_mono binary32 (by decide) (by omega)
  have hsign : (signBit (fsub hi lo) && signBit lo) = false := by
    rw [hds]
    cases signBit lo
    · simp
    · split_ifs
      · simp
      · simp
        omega
  have hd0 : 0 ≤ toUnits (fsub hi lo) := by
    rw [toUnits, hds]
    split_ifs with hn hs hs
    · rw [absUnits, hdb, hn]
      decide
    · positivity
    · simp at hs
      omega
    · positivity
  have hdabs : toUnits (fsub hi lo) ≤ absUnits (fsub hi lo) := by
    rw [toUnits]
    split_ifs <;> omega
  have h15 : magUnits binary32 0x41F00000 = 2 * magUnits binary32 0x41700000 := by decide
  generalize fsub hi lo = d at *
  generalize hM : magUnits binary32 0x41700000 = M at *
  have hprod0 : 0 ≤ toUnits t * toUnits d := by
    rw [ht.toUnits]
    positivity
  have hprod : toUnits t * toUnits d ≤ (M : Int) * one32 := by
    rw [ht.toUnits]
    have e1 : (absUnits t : Int) ≤ one32 := by exact_mod_cast htu
    have e2 : toUnits d ≤ (M : Int) := by
      have : (absUnits d : Int) ≤ M := by exact_mod_cast hdu
      omega
    nlinarith
  have hone : (0 : Int) < one32 := by decide
  cases fused with
  | true =>
    refine (plain_round (p := 0x41F00000) (by decide) (by positivity) (fun hz => ?_) (by decide) ?_).1
    · rw [ht.2]
      simpa using hsign
    · rw [h15]
      have e : toUnits t * toUnits d + toUnits lo * one32 ≤ ((2 * M * one32 : Nat) : Int) := by
        push_cast
        nlinarith
      have e0 : 0 ≤ toUnits t * toUnits d + toUnits lo * one32 := by positivity
      omega
  | false =>
    have hqm : roundMag binary32 (toUnits t * toUnits d).natAbs one32 ≤ 0x41700000 :=
      roundMag_le binary32 (by decide) (by decide) (by
        rw [hM]
        have : toUnits t * toUnits d ≤ ((M * one32 : Nat) : Int) := by
          push_cast
          exact hprod
        omega)
    obtain ⟨hqs, hqb⟩ := roundUnits_parts (signBit t ^^ signBit d) (toUnits t * toUnits d) one32
    rw [← fmul] at hqs hqb
    have hqu : absUnits (fmul t d) ≤ M := by
      rw [← hM]
      exact magUnits_mono binary32 (by decide) (by omega)
    have hqsign : (signBit lo && signBit (fmul t d)) = false := by
      rw [hqs, ht.2]
      split_ifs
      · rw [Bool.and_comm]
        simpa using hsign
      · simp
        omega
    have hq0 : 0 ≤ toUnits (fmul t d) := by
      rw [toUnits, hqs]
      split_ifs with hn hs hs
      · rw [absUnits, hqb, hn]
        decide
      · positivity
      · simp at hs
        omega
      · positivity
    have hqabs : toUnits (fmul t d) ≤ absUnits (fmul t d) := by
      rw [toUnits]
      split_ifs <;> omega
    refine (plain_round (p := 0x41F00000) (by decide) (by omega) (fun _ => hqsign) (by decide) ?_).1
    rw [h15]
    omega

/-- Every velocity of a table is at most the ceiling of its profile, hence at most 15.0 (R7). -/
theorem table_vel_le_ceiling (c : Config) (p : Profile) {k : Nat} {a : Point} (hk : romRead c p k = some a) :
    toUnits a.vel ≤ magUnits binary32 0x41700000 := by
  have hb : toUnits p.ceiling ≤ magUnits binary32 0x41700000 := by cases p <;> decide
  have hlen : k < p.size := by simpa using (List.getElem?_eq_some_iff.1 hk).1
  have hl := romRead_last c p
  rcases Nat.lt_or_ge k (p.size - 1) with h | h
  · exact le_trans (table_vel_le c p hk hl h) hb
  · obtain rfl : k = p.size - 1 := by omega
    obtain rfl : _ = a := Option.some.inj (hl.symm.trans hk)
    exact hb

/-- The engine's result is never negative, never a NaN and never an infinity (R194). -/
theorem interp_plain (c : Config) (p : Profile) (raw : Raw) {v : F32} (h : interp c p raw = some v) : Plain v := by
  by_cases h1 : raw ≤ 409#12
  · rw [interp_floor c p h1] at h
    rw [← Option.some.inj h]
    exact ⟨by decide, by decide⟩
  · by_cases h2 : 3686#12 ≤ raw
    · rw [interp_ceiling c p h2] at h
      rw [← Option.some.inj h]
      cases p <;> exact ⟨by decide, by decide⟩
    · obtain ⟨lo, hi, hlo, hhi, ha, hb⟩ := bracket_found c p (raw := raw) (by bv_omega) (by bv_omega)
      rw [interp_bracket c p hlo hhi ha hb (by bv_omega)] at h
      rw [← Option.some.inj h, interpolate]
      have hraw := hi.raw.isLt
      have ha' : lo.raw.toNat < raw.toNat := by bv_omega
      have hb' : raw.toNat ≤ hi.raw.toNat := by bv_omega
      have := mac_plain (num := raw.toNat - lo.raw.toNat) (den := hi.raw.toNat - lo.raw.toNat) (by omega) (by omega) (by omega)
        c.macFused (table_vel_ok c p hlo).2 (table_vel_le c p hlo hhi (by omega)) (table_vel_le_ceiling c p hhi)
      rw [Int.natCast_sub (by omega), Int.natCast_sub (by omega)] at this
      exact this

end Sys2Proof.Machine
end

