-- ==== Sys2Proof/Laws/Decode.lean ====
section
/-! SUPPORT. The fields of a command word and what a row of the opcode map asks of them (30_encoding.md R91, R92, R97). -/

namespace Sys2Proof

/-- Concatenations of the same widths agree iff their parts do. -/
theorem append_inj {m n : Nat} {a c : BitVec m} {b d : BitVec n} : a ++ b = c ++ d ↔ a = c ∧ b = d := by
  refine ⟨fun h => ?_, fun ⟨h1, h2⟩ => by rw [h1, h2]⟩
  have h1 := congrArg (BitVec.extractLsb' n m) h
  have h2 := congrArg (BitVec.extractLsb' 0 n) h
  rw [BitVec.extractLsb'_append_eq_left, BitVec.extractLsb'_append_eq_left] at h1
  rw [BitVec.extractLsb'_append_eq_right, BitVec.extractLsb'_append_eq_right] at h2
  exact ⟨h1, h2⟩

/-- A command word is its fields `OP`, `M` and `O` (R91). -/
theorem word_fields (w : Word48) : Machine.opField w ++ Machine.modField w ++ w.extractLsb' 0 40 = w := by
  apply BitVec.eq_of_getLsbD_eq
  intro i hi
  simp only [Machine.opField, Machine.modField, BitVec.getLsbD_append, BitVec.getLsbD_extractLsb']
  grind

/-- `(W & mask) == match`, field by field (R97). -/
theorem masked_eq_iff (a ma pa b mb pb : BitVec 4) (o mo po : BitVec 40) :
    (a ++ b ++ o) &&& (ma ++ mb ++ mo) = pa ++ pb ++ po ↔ a &&& ma = pa ∧ b &&& mb = pb ∧ o &&& mo = po := by
  rw [BitVec.and_append, BitVec.and_append, append_inj, append_inj, and_assoc]

/-- When a row accepts a word given by its fields (R97). -/
theorem accepts_fields {n : String} {pat mask : Word48} {f : Word48 → Instr} (ma pa mb pb : BitVec 4) (mo po : BitVec 40)
    (hm : mask = ma ++ mb ++ mo) (hp : pat = pa ++ pb ++ po) (a b : BitVec 4) (o : BitVec 40) :
   (Row.mk n pat mask f).accepts (a ++ b ++ o) = (decide (a &&& ma = pa) && (decide (b &&& mb = pb) && decide (o &&& mo = po))) := by
  rw [Bool.eq_iff_iff]
  simp only [Row.accepts, hm, hp, beq_iff_eq, Bool.and_eq_true, decide_eq_true_eq]
  exact masked_eq_iff ..

/-- The decoder by fields: the one description of `decode` that later proofs use (R97, R99). -/
theorem decode_fields (a b : BitVec 4) (o : BitVec 40) : decode (a ++ b ++ o) =
    if a = 0 ∧ b = 0 ∧ o = 0 then .ok .nop
    else if a = 1 ∧ b = 0 ∧ o = 0 then .ok .probe
    else if a = 2 ∧ b &&& 0xE = 0 ∧ o = 0 then .ok (.setrange (Machine.operandS (a ++ b ++ o)))
    else if a = 7 ∧ b = 0 ∧ o = 0 then .ok .readraw
    else if a = 7 ∧ b = 1 ∧ o = 0 then .ok .readmps
    else if a = 7 ∧ b = 2 ∧ o = 0 then .ok .readmph
    else if a = 8 ∧ b = 0 ∧ o = 0 then .ok .getstate
    else if a = 3 ∧ b = 0 then .ok (.validate (Machine.operandF (a ++ b ++ o)))
    else if a = 4 ∧ b = 0 then .ok (.decode (Machine.operandF (a ++ b ++ o)))
    else if a = 5 ∧ b = 0 ∧ o &&& 0xF000FFFFFF = 0 then .ok (.interp (Machine.operandR (a ++ b ++ o)))
    else if a = 6 ∧ b = 0 ∧ o &&& 0xFF = 0 then .ok (.tomph (Machine.operandV (a ++ b ++ o)))
    else .error (rejection (a ++ b ++ o)) := by
  have all4 : ∀ x : BitVec 4, x &&& 15 = x := by decide
  have all40 : ∀ x : BitVec 40, x &&& 0xFFFFFFFFFF = x := fun x => BitVec.and_allOnes
  have none40 : ∀ x : BitVec 40, (x &&& 0 = 0) = True := fun x => eq_true BitVec.and_zero
  simp only [decode, opcodeMap, rowsZS, rowsFRV, List.cons_append, List.nil_append, decodeRows]
  rw [accepts_fields (n := "NOP") (pat := 0x000000000000#48) (mask := 0xFFFFFFFFFFFF#48) 0xF 0x0 0xF 0x0 0xFFFFFFFFFF 0x0 rfl rfl,
    accepts_fields (n := "PROBE") (pat := 0x100000000000#48) (mask := 0xFFFFFFFFFFFF#48) 0xF 0x1 0xF 0x0 0xFFFFFFFFFF 0x0 rfl rfl,
    accepts_fields (n := "SETRANGE") (pat := 0x200000000000#48) (mask := 0xFEFFFFFFFFFF#48) 0xF 0x2 0xE 0x0 0xFFFFFFFFFF 0x0 rfl rfl,
    accepts_fields (n := "READRAW") (pat := 0x700000000000#48) (mask := 0xFFFFFFFFFFFF#48) 0xF 0x7 0xF 0x0 0xFFFFFFFFFF 0x0 rfl rfl,
    accepts_fields (n := "READMPS") (pat := 0x710000000000#48) (mask := 0xFFFFFFFFFFFF#48) 0xF 0x7 0xF 0x1 0xFFFFFFFFFF 0x0 rfl rfl,
    accepts_fields (n := "READMPH") (pat := 0x720000000000#48) (mask := 0xFFFFFFFFFFFF#48) 0xF 0x7 0xF 0x2 0xFFFFFFFFFF 0x0 rfl rfl,
    accepts_fields (n := "GETSTATE") (pat := 0x800000000000#48) (mask := 0xFFFFFFFFFFFF#48) 0xF 0x8 0xF 0x0 0xFFFFFFFFFF 0x0 rfl rfl,
    accepts_fields (n := "VALIDATE") (pat := 0x300000000000#48) (mask := 0xFF0000000000#48) 0xF 0x3 0xF 0x0 0x0 0x0 rfl rfl,
    accepts_fields (n := "DECODE") (pat := 0x400000000000#48) (mask := 0xFF0000000000#48) 0xF 0x4 0xF 0x0 0x0 0x0 rfl rfl,
    accepts_fields (n := "INTERP") (pat := 0x500000000000#48) (mask := 0xFFF000FFFFFF#48) 0xF 0x5 0xF 0x0 0xF000FFFFFF 0x0 rfl rfl,
    accepts_fields (n := "TOMPH") (pat := 0x600000000000#48) (mask := 0xFF00000000FF#48) 0xF 0x6 0xF 0x0 0xFF 0x0 rfl rfl]
  simp only [all4, all40, none40, Bool.and_eq_true, decide_eq_true_eq, and_true]

/-- The decoder by cases: a word is the command of exactly one row, or of none and is rejected (R97, R99). -/
theorem decode_cases (a b : BitVec 4) (o : BitVec 40) :
    ((a = 0 ∧ b = 0 ∧ o = 0) ∧ decode (a ++ b ++ o) = .ok (.nop)) ∨
    ((a = 1 ∧ b = 0 ∧ o = 0) ∧ decode (a ++ b ++ o) = .ok (.probe)) ∨
    ((a = 2 ∧ b &&& 0xE = 0 ∧ o = 0) ∧ decode (a ++ b ++ o) = .ok (.setrange (Machine.operandS (a ++ b ++ o)))) ∨
    ((a = 7 ∧ b = 0 ∧ o = 0) ∧ decode (a ++ b ++ o) = .ok (.readraw)) ∨
    ((a = 7 ∧ b = 1 ∧ o = 0) ∧ decode (a ++ b ++ o) = .ok (.readmps)) ∨
    ((a = 7 ∧ b = 2 ∧ o = 0) ∧ decode (a ++ b ++ o) = .ok (.readmph)) ∨
    ((a = 8 ∧ b = 0 ∧ o = 0) ∧ decode (a ++ b ++ o) = .ok (.getstate)) ∨
    ((a = 3 ∧ b = 0) ∧ decode (a ++ b ++ o) = .ok (.validate (Machine.operandF (a ++ b ++ o)))) ∨
    ((a = 4 ∧ b = 0) ∧ decode (a ++ b ++ o) = .ok (.decode (Machine.operandF (a ++ b ++ o)))) ∨
    ((a = 5 ∧ b = 0 ∧ o &&& 0xF000FFFFFF = 0) ∧ decode (a ++ b ++ o) = .ok (.interp (Machine.operandR (a ++ b ++ o)))) ∨
    ((a = 6 ∧ b = 0 ∧ o &&& 0xFF = 0) ∧ decode (a ++ b ++ o) = .ok (.tomph (Machine.operandV (a ++ b ++ o)))) ∨
    (decode (a ++ b ++ o) = .error (rejection (a ++ b ++ o)) ∧
      ¬ (a = 0 ∧ b = 0 ∧ o = 0) ∧
      ¬ (a = 1 ∧ b = 0 ∧ o = 0) ∧
      ¬ (a = 2 ∧ b &&& 0xE = 0 ∧ o = 0) ∧
      ¬ (a = 7 ∧ b = 0 ∧ o = 0) ∧
      ¬ (a = 7 ∧ b = 1 ∧ o = 0) ∧
      ¬ (a = 7 ∧ b = 2 ∧ o = 0) ∧
      ¬ (a = 8 ∧ b = 0 ∧ o = 0) ∧
      ¬ (a = 3 ∧ b = 0) ∧
      ¬ (a = 4 ∧ b = 0) ∧
      ¬ (a = 5 ∧ b = 0 ∧ o &&& 0xF000FFFFFF = 0) ∧
      ¬ (a = 6 ∧ b = 0 ∧ o &&& 0xFF = 0)) := by
  rw [decode_fields]
  by_cases h1 : a = 0 ∧ b = 0 ∧ o = 0
  · exact .inl ⟨h1, if_pos h1⟩
  rw [if_neg h1]
  by_cases h2 : a = 1 ∧ b = 0 ∧ o = 0
  · exact .inr (.inl ⟨h2, if_pos h2⟩)
  rw [if_neg h2]
  by_cases h3 : a = 2 ∧ b &&& 0xE = 0 ∧ o = 0
  · exact .inr (.inr (.inl ⟨h3, if_pos h3⟩))
  rw [if_neg h3]
  by_cases h4 : a = 7 ∧ b = 0 ∧ o = 0
  · exact .inr (.inr (.inr (.inl ⟨h4, if_pos h4⟩)))
  rw [if_neg h4]
  by_cases h5 : a = 7 ∧ b = 1 ∧ o = 0
  · exact .inr (.inr (.inr (.inr (.inl ⟨h5, if_pos h5⟩))))
  rw [if_neg h5]
  by_cases h6 : a = 7 ∧ b = 2 ∧ o = 0
  · exact .inr (.inr (.inr (.inr (.inr (.inl ⟨h6, if_pos h6⟩)))))
  rw [if_neg h6]
  by_cases h7 : a = 8 ∧ b = 0 ∧ o = 0
  · exact .inr (.inr (.inr (.inr (.inr (.inr (.inl ⟨h7, if_pos h7⟩))))))
  rw [if_neg h7]
  by_cases h8 : a = 3 ∧ b = 0
  · exact .inr (.inr (.inr (.inr (.inr (.inr (.inr (.inl ⟨h8, if_pos h8⟩)))))))
  rw [if_neg h8]
  by_cases h9 : a = 4 ∧ b = 0
  · exact .inr (.inr (.inr (.inr (.inr (.inr (.inr (.inr (.inl ⟨h9, if_pos h9⟩))))))))
  rw [if_neg h9]
  by_cases h10 : a = 5 ∧ b = 0 ∧ o &&& 0xF000FFFFFF = 0
  · exact .inr (.inr (.inr (.inr (.inr (.inr (.inr (.inr (.inr (.inl ⟨h10, if_pos h10⟩)))))))))
  rw [if_neg h10]
  by_cases h11 : a = 6 ∧ b = 0 ∧ o &&& 0xFF = 0
  · exact .inr (.inr (.inr (.inr (.inr (.inr (.inr (.inr (.inr (.inr (.inl ⟨h11, if_pos h11⟩))))))))))
  rw [if_neg h11]
  exact .inr (.inr (.inr (.inr (.inr (.inr (.inr (.inr (.inr (.inr (.inr ⟨rfl, h1, h2, h3, h4, h5, h6, h7, h8, h9, h10, h11⟩))))))))))

/-- The three fields of any word. -/
theorem word_cases (w : Word48) : ∃ (a b : BitVec 4) (o : BitVec 40), w = a ++ b ++ o :=
  ⟨_, _, _, (word_fields w).symm⟩

/-- The five bytes of format F make up all 40 operand bits (R92, R93). -/
theorem frameField_operandF (w : Word48) : frameField (Machine.operandF w) = w.extractLsb' 0 40 := by
  apply BitVec.eq_of_getLsbD_eq
  intro i hi
  simp only [frameField, Machine.operandF, BitVec.getLsbD_append, BitVec.getLsbD_extractLsb']
  grind

/-- Reading the bytes of format F back from an encoded frame (R93). -/
theorem operandF_append (h : BitVec 8) (f : Frame) : Machine.operandF (h ++ frameField f) = f := by
  obtain ⟨f0, f1, f2, f3, f4⟩ := f
  simp only [Machine.operandF, frameField, Frame.mk.injEq]
  refine ⟨?_, ?_, ?_, ?_, ?_⟩ <;>
  · apply BitVec.eq_of_getLsbD_eq
    intro i hi
    simp only [BitVec.getLsbD_append, BitVec.getLsbD_extractLsb']
    grind

/-- The six bytes a word is written in write that word (R90). -/
theorem wordOfBytes_wordBytes (w : Word48) : Machine.wordOfBytes (Machine.wordBytes w) = some w := by
  simp only [Machine.wordBytes, Machine.wordOfBytes, Option.some.injEq]
  apply BitVec.eq_of_getLsbD_eq
  intro i hi
  simp only [BitVec.getLsbD_append, BitVec.getLsbD_extractLsb']
  grind

end Sys2Proof
end

