-- ==== Sys2Proof/Laws/State.lean ====
section
/-! SUPPORT. What each update of State leaves in each field, and how the updates read back. -/

namespace Sys2Proof.Machine

section updates
variable (s : State)

@[simp] theorem State.setReady_cfg (v : Bool) : (s.setReady v).cfg = s.cfg := rfl
@[simp] theorem State.setReady_ready (v : Bool) : (s.setReady v).ready = v := rfl
@[simp] theorem State.setReady_range (v : Bool) : (s.setReady v).range = s.range := rfl
@[simp] theorem State.setReady_lastValid (v : Bool) : (s.setReady v).lastValid = s.lastValid := rfl
@[simp] theorem State.setReady_inflight (v : Bool) : (s.setReady v).inflight = s.inflight := rfl
@[simp] theorem State.setReady_inputs (v : Bool) : (s.setReady v).inputs = s.inputs := rfl
@[simp] theorem State.setReady_requests (v : Bool) : (s.setReady v).requests = s.requests := rfl
@[simp] theorem State.setReady_results (v : Bool) : (s.setReady v).results = s.results := rfl

@[simp] theorem State.setRange_cfg (p : Profile) : (s.setRange p).cfg = s.cfg := rfl
@[simp] theorem State.setRange_ready (p : Profile) : (s.setRange p).ready = s.ready := rfl
@[simp] theorem State.setRange_range (p : Profile) : (s.setRange p).range = p := rfl
@[simp] theorem State.setRange_lastValid (p : Profile) : (s.setRange p).lastValid = s.lastValid := rfl
@[simp] theorem State.setRange_inflight (p : Profile) : (s.setRange p).inflight = s.inflight := rfl
@[simp] theorem State.setRange_inputs (p : Profile) : (s.setRange p).inputs = s.inputs := rfl
@[simp] theorem State.setRange_requests (p : Profile) : (s.setRange p).requests = s.requests := rfl
@[simp] theorem State.setRange_results (p : Profile) : (s.setRange p).results = s.results := rfl

@[simp] theorem State.setLastValid_cfg (v : Bool) : (s.setLastValid v).cfg = s.cfg := rfl
@[simp] theorem State.setLastValid_ready (v : Bool) : (s.setLastValid v).ready = s.ready := rfl
@[simp] theorem State.setLastValid_range (v : Bool) : (s.setLastValid v).range = s.range := rfl
@[simp] theorem State.setLastValid_lastValid (v : Bool) : (s.setLastValid v).lastValid = v := rfl
@[simp] theorem State.setLastValid_inflight (v : Bool) : (s.setLastValid v).inflight = s.inflight := rfl
@[simp] theorem State.setLastValid_inputs (v : Bool) : (s.setLastValid v).inputs = s.inputs := rfl
@[simp] theorem State.setLastValid_requests (v : Bool) : (s.setLastValid v).requests = s.requests := rfl
@[simp] theorem State.setLastValid_results (v : Bool) : (s.setLastValid v).results = s.results := rfl

@[simp] theorem State.setInflight_cfg (v : InFlight) : (s.setInflight v).cfg = s.cfg := rfl
@[simp] theorem State.setInflight_ready (v : InFlight) : (s.setInflight v).ready = s.ready := rfl
@[simp] theorem State.setInflight_range (v : InFlight) : (s.setInflight v).range = s.range := rfl
@[simp] theorem State.setInflight_lastValid (v : InFlight) : (s.setInflight v).lastValid = s.lastValid := rfl
@[simp] theorem State.setInflight_inflight (v : InFlight) : (s.setInflight v).inflight = v := rfl
@[simp] theorem State.setInflight_inputs (v : InFlight) : (s.setInflight v).inputs = s.inputs := rfl
@[simp] theorem State.setInflight_requests (v : InFlight) : (s.setInflight v).requests = s.requests := rfl
@[simp] theorem State.setInflight_results (v : InFlight) : (s.setInflight v).results = s.results := rfl

@[simp] theorem State.emit_cfg (r : Result) : (s.emit r).cfg = s.cfg := rfl
@[simp] theorem State.emit_ready (r : Result) : (s.emit r).ready = s.ready := rfl
@[simp] theorem State.emit_range (r : Result) : (s.emit r).range = s.range := rfl
@[simp] theorem State.emit_lastValid (r : Result) : (s.emit r).lastValid = s.lastValid := rfl
@[simp] theorem State.emit_inflight (r : Result) : (s.emit r).inflight = s.inflight := rfl
@[simp] theorem State.emit_inputs (r : Result) : (s.emit r).inputs = s.inputs := rfl
@[simp] theorem State.emit_requests (r : Result) : (s.emit r).requests = s.requests := rfl
@[simp] theorem State.emit_results (r : Result) : (s.emit r).results = s.results ++ [r] := rfl

@[simp] theorem State.issue_cfg (c : BusCmd) : (s.issue c).cfg = s.cfg := rfl
@[simp] theorem State.issue_ready (c : BusCmd) : (s.issue c).ready = s.ready := rfl
@[simp] theorem State.issue_range (c : BusCmd) : (s.issue c).range = s.range := rfl
@[simp] theorem State.issue_lastValid (c : BusCmd) : (s.issue c).lastValid = s.lastValid := rfl
@[simp] theorem State.issue_inflight (c : BusCmd) : (s.issue c).inflight = .wait c c.request := rfl
@[simp] theorem State.issue_inputs (c : BusCmd) : (s.issue c).inputs = s.inputs := rfl
@[simp] theorem State.issue_requests (c : BusCmd) : (s.issue c).requests = s.requests ++ [c.request] := rfl
@[simp] theorem State.issue_results (c : BusCmd) : (s.issue c).results = s.results := rfl

@[simp] theorem State.applyReset_cfg : s.applyReset.cfg = s.cfg := rfl
@[simp] theorem State.applyReset_ready : s.applyReset.ready = false := rfl
@[simp] theorem State.applyReset_range : s.applyReset.range = .sevenMps := rfl
@[simp] theorem State.applyReset_lastValid : s.applyReset.lastValid = false := rfl
@[simp] theorem State.applyReset_inflight : s.applyReset.inflight = .idle := rfl
@[simp] theorem State.applyReset_inputs : s.applyReset.inputs = s.inputs := rfl
@[simp] theorem State.applyReset_requests : s.applyReset.requests = s.requests := rfl
@[simp] theorem State.applyReset_results : s.applyReset.results = s.results := rfl

/-- An error result is the record with its status alone. -/
@[simp] theorem State.fail_eq (st : Status) : s.fail st = s.emit { status := st } := rfl

/-- A failed read clears LAST_VALID, goes idle and reports its status. -/
@[simp] theorem State.failRead_eq (st : Status) :
    s.failRead st = ((s.setLastValid false).setInflight .idle).emit { status := st } := rfl

end updates

/-- Both profile encodings read back (R34). -/
@[simp] theorem Profile_ofBit_bit (p : Profile) : Profile.ofBit p.bit = p := by cases p <;> rfl

end Sys2Proof.Machine
end

