-- ==== Sys2Proof/Laws/Ops.lean ====
section
/-! SUPPORT. One lemma per shared operation, saying everything it can do; provers cite these instead of unfolding. -/

namespace Sys2Proof.Machine

/-- The mode gate lets a command through while Ready (R283). -/
@[simp] theorem gated_of_ready {s : State} (h : s.ready = true) (k : Out) : gated s k = k := by simp [gated, h]

/-- The mode gate answers `NOTREADY` otherwise (R283). -/
@[simp] theorem gated_of_not_ready {s : State} (h : s.ready = false) (k : Out) :
    gated s k = .next (s.emit { status := .notready }) := by simp [gated, h]

/-- Interpolation always has a value to go on with (R192). -/
theorem withInterp_spec (raw : Raw) (s : State) :
    ∃ v, interp s.cfg s.range raw = some v ∧ ∀ k, withInterp raw s k = k v := by
  obtain ⟨v, hv⟩ := interp_isSome s.cfg s.range raw
  exact ⟨v, hv, fun k => by simp [withInterp, hv]⟩

/-- Five bytes or more are a frame of the first five (R131, R134). -/
theorem readFrame_full (f : Frame) (more : List Byte) :
    readFrame (.data (f.f0 :: f.f1 :: f.f2 :: f.f3 :: f.f4 :: more)) = .frame f := by
  simp [readFrame, frameLen, frameOfBytes]

/-- Fewer than five bytes are short (R134). -/
theorem readFrame_short {bytes : List Byte} (h : bytes.length < 5) : readFrame (.data bytes) = .short := by
  match bytes, h with
  | [], _ => rfl
  | [_], _ => rfl
  | [_, _], _ => rfl
  | [_, _, _], _ => rfl
  | [_, _, _, _], _ => rfl

/-- Everything the read pipeline can do (R240). -/
theorem readPipeline_cases (a : ReadAnswer) (s : State) (k : Raw → Result → State → Out) :
    (readFrame a = .noAck ∧
      readPipeline a s k = .next (((s.setLastValid false).setInflight .idle).emit { status := .noack })) ∨
    (readFrame a = .short ∧
      readPipeline a s k = .next (((s.setLastValid false).setInflight .idle).emit { status := .short })) ∨
    (∃ f, readFrame a = .frame f ∧
      readPipeline a s k = k (extract f.f1 f.f2) { (checksum f).result with raw := some (extract f.f1 f.f2) }
        ((s.setLastValid (checksum f).valid).setInflight .idle)) := by
  cases h : readFrame a with
  | noAck => exact .inl ⟨rfl, by simp [readPipeline, h]⟩
  | short => exact .inr (.inl ⟨rfl, by simp [readPipeline, h]⟩)
  | frame f => exact .inr (.inr ⟨f, rfl, by simp [readPipeline, h]⟩)

/-- The first input that is no command, with the commands before it left in place (R40). -/
theorem firstNonCommand_some {ins rest : List Input} {e : Input} (h : firstNonCommand ins = some (e, rest)) :
    ∃ (held : List Word48) (post : List Input), ins = held.map .command ++ e :: post ∧
      rest = held.map .command ++ post ∧ ∀ w, e ≠ .command w := by
  induction ins generalizing rest with
  | nil => simp [firstNonCommand] at h
  | cons x xs ih =>
    cases x with
    | command w =>
      simp only [firstNonCommand, Option.map_eq_some_iff, Prod.exists, Prod.mk.injEq] at h
      obtain ⟨e', r', h1, rfl, rfl⟩ := h
      obtain ⟨held, post, rfl, rfl, hne⟩ := ih h1
      exact ⟨w :: held, post, rfl, rfl, hne⟩
    | answer n a =>
      simp only [firstNonCommand, Option.some.injEq, Prod.mk.injEq] at h
      obtain ⟨rfl, rfl⟩ := h
      exact ⟨[], xs, rfl, rfl, by simp⟩
    | reset =>
      simp only [firstNonCommand, Option.some.injEq, Prod.mk.injEq] at h
      obtain ⟨rfl, rfl⟩ := h
      exact ⟨[], xs, rfl, rfl, by simp⟩

/-- Commands held on the port are passed over (R40). -/
theorem firstNonCommand_held (held : List Word48) (e : Input) (post : List Input) (he : ∀ w, e ≠ .command w) :
    firstNonCommand (held.map .command ++ e :: post) = some (e, held.map .command ++ post) := by
  induction held with
  | nil => cases e with
    | command w => exact absurd rfl (he w)
    | answer n a => rfl
    | reset => rfl
  | cons w ws ih => simp [firstNonCommand, ih]

/-- With nothing but commands to come, a waiting core has nothing to take (R40). -/
theorem firstNonCommand_commands {ins : List Input} (h : ∀ e ∈ ins, ∃ w, e = .command w) : firstNonCommand ins = none := by
  induction ins with
  | nil => rfl
  | cons x xs ih =>
    obtain ⟨w, rfl⟩ := h x (by simp)
    simp [firstNonCommand, ih fun e he => h e (by simp [he])]

/-- A taken input was among the inputs. -/
theorem takeInput_mem {fl : InFlight} {ins rest : List Input} {e : Input} (h : takeInput fl ins = some (e, rest)) : e ∈ ins := by
  cases fl with
  | idle => cases ins <;> simp_all [takeInput]
  | wait c req =>
    obtain ⟨held, post, rfl, -, -⟩ := firstNonCommand_some h
    simp

/-- Everything an accepted command can do: give its one result, with RANGE written by SETRANGE alone and LAST_VALID by VALIDATE
alone; or issue its one request and wait, a READ command only while Ready (R252). -/
theorem exec_cases (i : Instr) (s : State) :
    (∃ p lv r, exec i s = .next (((s.setRange p).setLastValid lv).emit r) ∧ r.clean ∧
      (p = s.range ∨ i = .setrange p) ∧ (lv = s.lastValid ∨ s.ready = true ∧ ∃ f, i = .validate f ∧ lv = (checksum f).valid)) ∨
    (∃ c, exec i s = .next (s.issue c) ∧ (c ≠ .probe → s.ready = true)) := by
  have clean_ok : ∀ r : Result, r.status = .ok → r.clean := fun r h hn => absurd h hn
  have quiet : ∀ r : Result, r.clean → exec i s = .next (s.emit r) →
      (∃ p lv r, exec i s = .next (((s.setRange p).setLastValid lv).emit r) ∧ r.clean ∧
      (p = s.range ∨ i = .setrange p) ∧ (lv = s.lastValid ∨ s.ready = true ∧ ∃ f, i = .validate f ∧ lv = (checksum f).valid)) :=
    fun r hc he => ⟨s.range, s.lastValid, r, he, hc, .inl rfl, .inl rfl⟩
  have fails : ∀ st : Status, Result.clean { status := st } := fun _ _ => rfl
  rcases Bool.eq_false_or_eq_true s.ready with hr | hr
  · cases i with
    | nop => exact .inl (quiet _ (clean_ok _ rfl) rfl)
    | probe => exact .inr ⟨.probe, rfl, by simp⟩
    | setrange p => exact .inl ⟨p, s.lastValid, _, rfl, clean_ok _ rfl, .inr rfl, .inl rfl⟩
    | getstate => exact .inl (quiet _ (clean_ok _ rfl) rfl)
    | validate f =>
      exact .inl ⟨s.range, (checksum f).valid, (checksum f).result, gated_of_ready hr _, clean_ok _ rfl, .inl rfl,
        .inr ⟨hr, f, rfl, rfl⟩⟩
    | decode f => exact .inl (quiet _ (clean_ok _ rfl) (gated_of_ready hr _))
    | interp raw =>
      obtain ⟨v, -, hk⟩ := withInterp_spec raw s
      exact .inl (quiet _ (clean_ok _ rfl) ((gated_of_ready hr _).trans (hk _)))
    | tomph v =>
      by_cases hv : isFinite v = true
      · exact .inl (quiet _ (clean_ok _ rfl) ((gated_of_ready hr _).trans (if_pos hv)))
      · exact .inl (quiet _ (fails .badop) ((gated_of_ready hr _).trans (if_neg hv)))
    | readraw => exact .inr ⟨.readRaw, gated_of_ready hr _, fun _ => hr⟩
    | readmps => exact .inr ⟨.readMps, gated_of_ready hr _, fun _ => hr⟩
    | readmph => exact .inr ⟨.readMph, gated_of_ready hr _, fun _ => hr⟩
  · cases i with
    | nop => exact .inl (quiet _ (clean_ok _ rfl) rfl)
    | probe => exact .inr ⟨.probe, rfl, by simp⟩
    | setrange p => exact .inl ⟨p, s.lastValid, _, rfl, clean_ok _ rfl, .inr rfl, .inl rfl⟩
    | getstate => exact .inl (quiet _ (clean_ok _ rfl) rfl)
    | validate f => exact .inl (quiet _ (fails .notready) (gated_of_not_ready hr _))
    | decode f => exact .inl (quiet _ (fails .notready) (gated_of_not_ready hr _))
    | interp raw => exact .inl (quiet _ (fails .notready) (gated_of_not_ready hr _))
    | tomph v => exact .inl (quiet _ (fails .notready) (gated_of_not_ready hr _))
    | readraw => exact .inl (quiet _ (fails .notready) (gated_of_not_ready hr _))
    | readmps => exact .inl (quiet _ (fails .notready) (gated_of_not_ready hr _))
    | readmph => exact .inl (quiet _ (fails .notready) (gated_of_not_ready hr _))

/-- LAST_VALID after a READ command's answer (R35, R240). -/
def answerValid (a : ReadAnswer) : Bool :=
  match readFrame a with
  | .frame f => (checksum f).valid
  | .noAck => false
  | .short => false

/-- Everything an answer can do to the command that waits for it: nothing, if and only if it is of the other kind; or finish it with one
result, READY written by PROBE alone and LAST_VALID by the READ commands alone (R132, R133, R240). -/
theorem finish_cases (c : BusCmd) (a : Answer) (s : State) :
    (finish c a s = .next s ∧ ¬ ((∃ ack, a = .probe ack) ↔ c = .probe)) ∨
    ∃ rd lv r, finish c a s = .next ((((s.setReady rd).setLastValid lv).setInflight .idle).emit r) ∧ r.clean ∧
      ((c = .probe ∧ a = .probe rd ∧ lv = s.lastValid) ∨
       (c ≠ .probe ∧ rd = s.ready ∧ ∃ ra, a = .read ra ∧ lv = answerValid ra)) := by
  have clean_ok : ∀ r : Result, r.status = .ok → r.clean := fun r h hn => absurd h hn
  have fails : ∀ st : Status, Result.clean { status := st } := fun _ _ => rfl
  cases a with
  | probe ack =>
    cases c with
    | probe =>
      cases ack with
      | true => exact .inr ⟨true, s.lastValid, _, rfl, clean_ok _ rfl, .inl ⟨rfl, rfl, rfl⟩⟩
      | false => exact .inr ⟨false, s.lastValid, _, rfl, fails _, .inl ⟨rfl, rfl, rfl⟩⟩
    | readRaw => exact .inl ⟨rfl, by simp⟩
    | readMps => exact .inl ⟨rfl, by simp⟩
    | readMph => exact .inl ⟨rfl, by simp⟩
  | read ra =>
    have read : ∀ (k : Raw → Result → State → Out), c ≠ .probe → finish c (.read ra) s = readPipeline ra s k →
        (∀ raw r t, r.status = .ok → ∃ r', k raw r t = .next (t.emit r') ∧ r'.status = .ok) →
        ∃ rd lv r, finish c (.read ra) s = .next ((((s.setReady rd).setLastValid lv).setInflight .idle).emit r) ∧ r.clean ∧
          ((c = .probe ∧ Answer.read ra = .probe rd ∧ lv = s.lastValid) ∨
           (c ≠ .probe ∧ rd = s.ready ∧ ∃ ra', Answer.read ra = .read ra' ∧ lv = answerValid ra')) := by
      intro k hc hf hk
      rcases readPipeline_cases ra s k with ⟨h, he⟩ | ⟨h, he⟩ | ⟨f, h, he⟩
      · exact ⟨s.ready, false, _, hf.trans he, fails _, .inr ⟨hc, rfl, ra, rfl, by simp [answerValid, h]⟩⟩
      · exact ⟨s.ready, false, _, hf.trans he, fails _, .inr ⟨hc, rfl, ra, rfl, by simp [answerValid, h]⟩⟩
      · obtain ⟨r', hr', hs⟩ := hk (extract f.f1 f.f2) { (checksum f).result with raw := some (extract f.f1 f.f2) }
          ((s.setLastValid (checksum f).valid).setInflight .idle) rfl
        exact ⟨s.ready, (checksum f).valid, r', (hf.trans he).trans hr', clean_ok _ hs,
          .inr ⟨hc, rfl, ra, rfl, by simp [answerValid, h]⟩⟩
    cases c with
    | probe => exact .inl ⟨rfl, by simp⟩
    | readRaw => exact .inr (read _ (by simp) rfl fun raw r t h => ⟨r, rfl, h⟩)
    | readMps =>
      refine .inr (read (fun raw r t => withInterp raw t fun v => .next (t.emit { r with value := some v }))
        (by simp) rfl fun raw r t h => ?_)
      obtain ⟨v, -, hk⟩ := withInterp_spec raw t
      exact ⟨_, hk _, h⟩
    | readMph =>
      refine .inr (read (fun raw r t => withInterp raw t fun v => .next (t.emit { r with value := some (mph t.cfg v) }))
        (by simp) rfl fun raw r t h => ?_)
      obtain ⟨v, -, hk⟩ := withInterp_spec raw t
      exact ⟨_, hk _, h⟩

/-- Everything a step can do: stay (nothing to take); accept a command, `ILLEGAL` or executed; drop an answer that is not the
response waited for; finish the waiting command; or reset (R252, R132, R320). -/
theorem step_cases (s : State) :
    (takeInput s.inflight s.inputs = none ∧ step s = .next s) ∨
    (∃ w rest e, s.inflight = .idle ∧ s.inputs = .command w :: rest ∧ decode w = .error e ∧
      step s = .next ({ s with inputs := rest }.emit { status := .illegal })) ∨
    (∃ w rest i, s.inflight = .idle ∧ s.inputs = .command w :: rest ∧ decode w = .ok i ∧
      step s = exec i { s with inputs := rest }) ∨
    (∃ n a rest, takeInput s.inflight s.inputs = some (.answer n a, rest) ∧ s.awaits n = false ∧
      step s = .next { s with inputs := rest }) ∨
    (∃ n a rest c req, s.inflight = .wait c req ∧ takeInput s.inflight s.inputs = some (.answer n a, rest) ∧
      s.awaits n = true ∧ step s = finish c a { s with inputs := rest }) ∨
    (∃ rest, takeInput s.inflight s.inputs = some (.reset, rest) ∧ step s = .next { s with inputs := rest }.applyReset) := by
  rcases h : takeInput s.inflight s.inputs with _ | ⟨e, rest⟩
  · exact .inl ⟨rfl, by simp [step, stepOnce, h]⟩
  · have hs : step s = receive e { s with inputs := rest } := by simp [step, stepOnce, h]
    cases e with
    | command w =>
      have hidle : s.inflight = .idle ∧ s.inputs = .command w :: rest := by
        cases hf : s.inflight with
        | idle =>
          rw [hf] at h
          cases hi : s.inputs with
          | nil => simp [hi, takeInput] at h
          | cons x xs =>
            simp only [hi, takeInput, Option.some.injEq, Prod.mk.injEq] at h
            exact ⟨rfl, by rw [h.1, h.2]⟩
        | wait c req =>
          rw [hf] at h
          obtain ⟨held, post, -, -, hne⟩ := firstNonCommand_some h
          exact absurd rfl (hne w)
      cases hd : decode w with
      | error e => exact .inr (.inl ⟨w, rest, e, hidle.1, hidle.2, hd, by rw [hs]; simp [receive, acceptCommand, hd]⟩)
      | ok i => exact .inr (.inr (.inl ⟨w, rest, i, hidle.1, hidle.2, hd, by rw [hs]; simp [receive, acceptCommand, hd]⟩))
    | answer n a =>
      cases hf : s.inflight with
      | idle => exact .inr (.inr (.inr (.inl ⟨n, a, rest, rfl, by simp [State.awaits, hf], by
        rw [hs]; simp [receive, deliverAnswer, hf]⟩)))
      | wait c req =>
        by_cases hn : n + 1 = s.requests.length
        · exact .inr (.inr (.inr (.inr (.inl ⟨n, a, rest, c, req, rfl, rfl, by simp [State.awaits, hf, hn], by
            rw [hs]; simp [receive, deliverAnswer, State.awaits, hf, hn]⟩))))
        · exact .inr (.inr (.inr (.inl ⟨n, a, rest, rfl, by simp [State.awaits, hf, hn], by
            rw [hs]; simp [receive, deliverAnswer, State.awaits, hf, hn]⟩)))
    | reset => exact .inr (.inr (.inr (.inr (.inr ⟨rest, rfl, hs⟩))))

end Sys2Proof.Machine
end

