-- ==== Sys2Proof/Laws/PerInstr.lean ====
section
/-! SUPPORT. Statements about the command as syntax, one lemma per constructor of Instr. -/

/-- The word of a command matches a row of the opcode map under that row's mask (30_encoding.md R97). -/
def Sys2Proof.Laws.RowMatch.Statement (i : Sys2Proof.Instr) : Prop :=
  ∃ r ∈ Sys2Proof.opcodeMap, r.accepts (Sys2Proof.encode i) = true

namespace Sys2Proof.Laws.RowMatch

theorem nop : Statement .nop := ⟨_, .head _, by decide⟩

theorem probe : Statement .probe := ⟨_, .tail _ (.head _), by decide⟩

theorem setrange (p : Profile) : Statement (.setrange p) :=
  ⟨_, .tail _ (.tail _ (.head _)), by cases p <;> decide⟩

/-- A word of format F, R or V matches its row when the masked bits of its tail are zero. -/
theorem accepts_tail {n : String} {f : Word48 → Instr} (op : BitVec 4) (mo : BitVec 40) {o : BitVec 40} (h : o &&& mo = 0) :
    (Row.mk n (op ++ 0#4 ++ 0#40) (0xF#4 ++ 0xF#4 ++ mo) f).accepts (op ++ 0#4 ++ o) = true := by
  rw [Row.accepts, beq_iff_eq, BitVec.and_append, BitVec.and_append, h]
  congr 1
  rw [show (0xF#4 : BitVec 4) = BitVec.allOnes 4 by decide, BitVec.and_allOnes, BitVec.and_allOnes]

theorem validate (f : Frame) : Statement (.validate f) :=
  ⟨_, .tail _ (.tail _ (.tail _ (.tail _ (.tail _ (.tail _ (.tail _ (.head _))))))), accepts_tail 0x3#4 0#40 (by simp)⟩

theorem decode (f : Frame) : Statement (.decode f) :=
  ⟨_, .tail _ (.tail _ (.tail _ (.tail _ (.tail _ (.tail _ (.tail _ (.tail _ (.head _)))))))),
    accepts_tail 0x4#4 0#40 (by simp)⟩

theorem interp (raw : Raw) : Statement (.interp raw) := by
  refine ⟨_, .tail _ (.tail _ (.tail _ (.tail _ (.tail _ (.tail _ (.tail _ (.tail _ (.tail _ (.head _))))))))), ?_⟩
  have e : encode (.interp raw) = 0x5#4 ++ 0#4 ++ (0#4 ++ raw ++ 0#24) := by
    rw [encode]
    apply BitVec.eq_of_getLsbD_eq
    intro i hi
    simp only [BitVec.getLsbD_append]
    grind
  rw [e]
  refine accepts_tail 0x5#4 0xF000FFFFFF#40 ?_
  rw [show 0xF000FFFFFF#40 = 0xF#4 ++ 0#12 ++ 0xFFFFFF#24 from rfl, BitVec.and_append, BitVec.and_append]
  simp

theorem tomph (v : F32) : Statement (.tomph v) := by
  refine ⟨_, .tail _ (.tail _ (.tail _ (.tail _ (.tail _ (.tail _ (.tail _ (.tail _ (.tail _ (.tail _ (.head _)))))))))), ?_⟩
  have e : encode (.tomph v) = 0x6#4 ++ 0#4 ++ (v ++ 0#8) := by
    rw [encode]
    apply BitVec.eq_of_getLsbD_eq
    intro i hi
    simp only [BitVec.getLsbD_append]
    grind
  rw [e]
  refine accepts_tail 0x6#4 0xFF#40 ?_
  rw [show 0xFF#40 = 0#32 ++ 0xFF#8 from rfl, BitVec.and_append]
  simp

theorem readraw : Statement .readraw := ⟨_, .tail _ (.tail _ (.tail _ (.head _))), by decide⟩

theorem readmps : Statement .readmps := ⟨_, .tail _ (.tail _ (.tail _ (.tail _ (.head _)))), by decide⟩

theorem readmph : Statement .readmph := ⟨_, .tail _ (.tail _ (.tail _ (.tail _ (.tail _ (.head _))))), by decide⟩

theorem getstate : Statement .getstate :=
  ⟨_, .tail _ (.tail _ (.tail _ (.tail _ (.tail _ (.tail _ (.head _)))))), by decide⟩

end Sys2Proof.Laws.RowMatch
end

