-- ==== Sys2Proof/Tests/Slice0.lean ====
section
/-! SUPPORT. Tests and witnesses. Every expected value comes from spec/95_test_vectors.md or is worked out from the cited rule,
never from the model. A `witness_<Obligation>` shows states and operands that meet that obligation's hypotheses. -/

namespace Sys2Proof.Machine.Tests

/-- A Ready, idle core with the given selector, flag and inputs. -/
def readyCore (p : Profile) (lv : Bool) (ins : List Input) : State :=
  { State.reset with ready := true, range := p, lastValid := lv, inputs := ins }

/-- A Ready core that waits for the answer to its first request. -/
def waitingCore (c : BusCmd) (ins : List Input) : State :=
  { State.reset with ready := true, lastValid := true, inflight := .wait c c.request, requests := [c.request], inputs := ins }

/-- The state after a step that goes on. -/
def after : Out → Option State
  | .next t => some t
  | .fault _ => none
  | .refused _ => none

/-- What one step puts on the result port, and the STATE byte after it. -/
def shown (s : State) : Option (List Result × Byte) :=
  (after (step s)).map fun t => (t.results.drop s.results.length, t.stateByte)

/-- The velocity bits INTERP gives on profile `p`. -/
def velocity (p : Profile) (raw : Raw) : Option F32 := interp defaultConfig p raw

/-! ### Decoding: a word written out for each constructor (R92, R97; words of spec/95, section 2) -/

theorem test_decode_nop : decode 0x000000000000#48 = .ok .nop := by rfl
theorem test_decode_probe : decode 0x100000000000#48 = .ok .probe := by rfl
theorem test_decode_setrange : decode 0x200000000000#48 = .ok (.setrange .sevenMps) ∧
    decode 0x210000000000#48 = .ok (.setrange .fifteenMps) := ⟨rfl, rfl⟩
theorem test_decode_validate : decode 0x30F701020304#48 = .ok (.validate ⟨0xF7#8, 0x01#8, 0x02#8, 0x03#8, 0x04#8⟩) := by rfl
theorem test_decode_decode : decode 0x40FFFB2CFEFD#48 = .ok (.decode ⟨0xFF#8, 0xFB#8, 0x2C#8, 0xFE#8, 0xFD#8⟩) := by rfl
theorem test_decode_interp : decode 0x500E66000000#48 = .ok (.interp 3686#12) := by rfl
theorem test_decode_tomph : decode 0x60BF80000000#48 = .ok (.tomph 0xBF800000#32) := by rfl
theorem test_decode_readraw : decode 0x700000000000#48 = .ok .readraw := by rfl
theorem test_decode_readmps : decode 0x710000000000#48 = .ok .readmps := by rfl
theorem test_decode_readmph : decode 0x720000000000#48 = .ok .readmph := by rfl
theorem test_decode_getstate : decode 0x800000000000#48 = .ok .getstate := by rfl

/-- The illegal words of spec/95, section 2.7, each under its case of R99. -/
theorem test_decode_illegal :
    decode 0x000000000001#48 = .error .reservedBit ∧ decode 0x010000000000#48 = .error .nonzeroModifier ∧
    decode 0x230000000000#48 = .error .nonzeroModifier ∧ decode 0x310000000000#48 = .error .nonzeroModifier ∧
    decode 0x50100B000000#48 = .error .reservedBit ∧ decode 0x500B2C000001#48 = .error .reservedBit ∧
    decode 0x6040E75C2901#48 = .error .reservedBit ∧ decode 0x730000000000#48 = .error .unassignedVariant ∧
    decode 0x700000000001#48 = .error .reservedBit ∧ decode 0x900000000000#48 = .error .unassignedOpcode ∧
    decode 0xF00000000000#48 = .error .unassignedOpcode ∧ decodeBytes [0x10#8, 0#8, 0#8, 0#8, 0#8] = .error .wrongLength :=
  ⟨rfl, rfl, rfl, rfl, rfl, rfl, rfl, rfl, rfl, rfl, rfl, rfl⟩

/-- The opcode table's numbering: the number of a word is `W` itself. -/
theorem test_decode_table_word : decodeTableWord 48 0x500B2C000000 = some (.interp 2860#12) ∧
    decodeTableWord 48 0x230000000000 = none ∧ decodeTableWord 49 0x1000000000000 = none := ⟨rfl, rfl, rfl⟩

/-- The very next step runs the word that withFetchWord places. -/
theorem test_with_fetch_word : step (State.reset.withFetchWord 48 0x210000000000) = exec (.setrange .fifteenMps) State.reset := by
  rfl

/-! ### Well-formedness (R102) and the table check (R7): what each refuses -/

theorem test_wellformed_all : Instr.wellFormed (.interp 4095#12) = true := by rfl
theorem test_wellformed_byte : byteInRange 255 = true ∧ byteInRange 256 = false := by decide
theorem test_wellformed_raw : rawInRange 4095 = true ∧ rawInRange 4096 = false := by decide
theorem test_wellformed_pattern : patternInRange (2 ^ 32 - 1) = true ∧ patternInRange (2 ^ 32) = false := by decide

/-- Each constraint of R7 refuses a table that breaks it alone: the length, a first point other than 409, a last point other
than 3686, a wrong ceiling, raw points out of order, velocities out of order, a negative velocity. -/
theorem test_table_refused :
    tableOk .sevenMps defaultCal7 = true ∧ tableOk .sevenMps defaultCal7.dropLast = false ∧
    tableOk .sevenMps (defaultCal7.set 0 ⟨408#12, 0#32⟩) = false ∧
    tableOk .sevenMps (defaultCal7.set 8 ⟨3687#12, 0x40E75C29#32⟩) = false ∧
    tableOk .sevenMps (defaultCal7.set 8 ⟨3686#12, 0x41700000#32⟩) = false ∧
    tableOk .sevenMps (defaultCal7.set 2 ⟨915#12, 0x4000A3D7#32⟩) = false ∧
    tableOk .sevenMps (defaultCal7.set 2 ⟨1522#12, 0x3F000000#32⟩) = false ∧
    tableOk .sevenMps (defaultCal7.set 0 ⟨409#12, 0xBF800000#32⟩) = false := by decide

/-! ### One step of each command (spec/95, sections 2 and 4) -/

theorem test_nop : shown (readyCore .fifteenMps true [.command 0x000000000000#48]) = some ([{ status := .ok }], 0x07#8) := by
  decide
theorem test_getstate : shown (readyCore .sevenMps true [.command 0x800000000000#48]) =
    some ([{ status := .ok, state := some 0x05#8 }], 0x05#8) := by decide
theorem test_getstate_bits : shown { readyCore .fifteenMps true [.command 0x800000000000#48] with ready := false } =
    some ([{ status := .ok, state := some 0x06#8 }], 0x06#8) := by decide
theorem test_setrange_uninitialized : shown { State.reset with inputs := [.command 0x210000000000#48] } =
    some ([{ status := .ok }], 0x02#8) := by decide
theorem test_setrange_back : shown (readyCore .fifteenMps true [.command 0x200000000000#48]) =
    some ([{ status := .ok }], 0x05#8) := by decide
theorem test_validate_valid : shown (readyCore .sevenMps false [.command 0x30D9FB2C0000#48]) =
    some ([{ status := .ok, valid := some true, sum := some 0x27#8, calculated := some 0xD9#8, overall := some 0x00#8 }],
      0x05#8) := by decide
theorem test_validate_invalid : shown (readyCore .sevenMps true [.command 0x30000BB81234#48]) =
    some ([{ status := .ok, valid := some false, sum := some 0x09#8, calculated := some 0xF7#8, overall := some 0x09#8 }],
      0x01#8) := by decide
theorem test_decode_raw : shown (readyCore .sevenMps true [.command 0x40FFFB2CFFFF#48]) =
    some ([{ status := .ok, raw := some 2860#12 }], 0x05#8) := by decide
theorem test_decode_not_ready : shown { State.reset with inputs := [.command 0x40000B2C0000#48] } =
    some ([{ status := .notready }], 0x00#8) := by decide
theorem test_interp : shown (readyCore .sevenMps false [.command 0x500B2C000000#48]) =
    some ([{ status := .ok, value := some 0x409AC532#32 }], 0x01#8) := by decide
theorem test_interp_fused : shown { readyCore .sevenMps false [.command 0x5003A8000000#48] with
    cfg := { defaultConfig with macFused := true } } = some ([{ status := .ok, value := some 0x3F8D1F65#32 }], 0x01#8) := by
  decide
theorem test_tomph_subnormal : shown (readyCore .sevenMps false [.command 0x600000000100#48]) =
    some ([{ status := .ok, value := some 0x00000002#32 }], 0x01#8) := by decide
theorem test_tomph_nan : shown (readyCore .sevenMps false [.command 0x607FC0000100#48]) =
    some ([{ status := .badop }], 0x01#8) := by decide
theorem test_probe_request : (after (step (readyCore .sevenMps true [.command 0x100000000000#48]))).map
    (fun t => (t.inflight, t.requests, t.results)) =
    some (.wait .probe (.probe 0x28#7), [.probe 0x28#7], []) := by decide
theorem test_probe_noack : shown (waitingCore .probe [.answer 0 (.probe false)]) =
    some ([{ status := .noack }], 0x04#8) := by decide
theorem test_readraw : shown (waitingCore .readRaw [.answer 0 (.read (.data [0xC9#8, 0xFB#8, 0x2C#8, 0x00#8, 0x00#8]))]) =
    some ([{ status := .ok, valid := some false, sum := some 0x27#8, calculated := some 0xD9#8, overall := some 0xF0#8,
             raw := some 2860#12 }], 0x01#8) := by decide
theorem test_readraw_short : shown (waitingCore .readRaw [.answer 0 (.read (.data [0xC9#8, 0x0B#8, 0x2C#8, 0x00#8]))]) =
    some ([{ status := .short }], 0x01#8) := by decide
theorem test_readmps : shown (waitingCore .readMps [.answer 0 (.read (.data [0x01#8, 0x0F#8, 0xFF#8, 0x00#8, 0x00#8]))]) =
    some ([{ status := .ok, valid := some false, sum := some 0x0E#8, calculated := some 0xF2#8, overall := some 0x0F#8,
             raw := some 4095#12, value := some 0x40E75C29#32 }], 0x01#8) := by decide
theorem test_readmph : shown { waitingCore .readMph [.answer 0 (.read (.data [0x00#8, 0x0B#8, 0xB8#8, 0x12#8, 0x34#8]))] with
    range := .fifteenMps } =
    some ([{ status := .ok, valid := some false, sum := some 0x09#8, calculated := some 0xF7#8, overall := some 0x09#8,
             raw := some 3000#12, value := some 0x41A08920#32 }], 0x03#8) := by decide
theorem test_readmph_not_acknowledged : shown (waitingCore .readMph [.answer 0 (.read .noAck)]) =
    some ([{ status := .noack }], 0x01#8) := by decide

/-- An illegal word is `ILLEGAL` before the mode is looked at (spec/95, section 2.8). -/
theorem test_illegal_first : shown { State.reset with inputs := [.command 0x6040E75C2901#48] } =
    some ([{ status := .illegal }], 0x00#8) := by decide

/-- The binary64 alternative of the mph multiply differs in the last place here (spec/95, section 2.6). -/
theorem test_mph64 : mph64 0x3F99CF0C#32 = 0x402C07BC#32 ∧ fmul 0x3F99CF0C#32 mphFactor = 0x402C07BD#32 := by decide +kernel

/-- Table points and their neighbours (spec/95, sections 2.3 to 2.5). -/
theorem test_velocities :
    velocity .sevenMps 409#12 = some 0x00000000#32 ∧ velocity .sevenMps 410#12 = some 0x3B0A9584#32 ∧
    velocity .sevenMps 915#12 = some 0x3F88F5C3#32 ∧ velocity .sevenMps 916#12 = some 0x3F892882#32 ∧
    velocity .sevenMps 3685#12 = some 0x40E74AEA#32 ∧ velocity .fifteenMps 3685#12 = some 0x416FBD66#32 := by decide

/-- Lines of assembly text (R102, R103; words of spec/95, section 4, program P3 among them). -/
theorem test_assembler :
    assembleLine ['V', 'A', 'L', 'I', 'D', 'A', 'T', 'E', ' ', '0', 'x', 'C', '9', ',', ' ', '1', '1', ',', '4', '4', ',', '0', ',', '0'] =
      .word 0x30C90B2C0000#48 ∧
    assembleLine ['T', 'O', 'M', 'P', 'H', ' ', '7', '.', '2', '3', ' ', ';', ' ', 'c'] = .word 0x6040E75C2900#48 ∧
    assembleLine ['R', 'E', 'A', 'D', ' ', 'm', 'p', 'h'] = .word 0x720000000000#48 ∧
    assembleLine ['I', 'N', 'T', 'E', 'R', 'P', ' ', '4', '0', '9', '6'] = .error := by decide

/-! ### Witnesses of the obligations' hypotheses -/

theorem witness_EncodeOfDecode : decode 0x500B2C000000#48 = .ok (.interp 2860#12) := by rfl

/-- A row accepts a word, once for a row of each format. -/
theorem witness_OpcodeMapRows : ∃ r ∈ opcodeMap, r.accepts 0x30F601020304#48 = true := ⟨_, List.mem_append_right _ (.head _), rfl⟩

theorem witness_OperandPlaces :
    decode 0x30F701020304#48 = .ok (.validate ⟨0xF7#8, 0x01#8, 0x02#8, 0x03#8, 0x04#8⟩) ∧
    decode 0x40FFFB2CFEFD#48 = .ok (.decode ⟨0xFF#8, 0xFB#8, 0x2C#8, 0xFE#8, 0xFD#8⟩) ∧
    decode 0x500FFF000000#48 = .ok (.interp 4095#12) ∧ decode 0x60BF80000000#48 = .ok (.tomph 0xBF800000#32) ∧
    decode 0x210000000000#48 = .ok (.setrange .fifteenMps) := ⟨rfl, rfl, rfl, rfl, rfl⟩

/-- An illegal word and an idle core. -/
theorem witness_IllegalWords : decode 0x900000000000#48 = .error .unassignedOpcode ∧ State.reset.inflight = .idle := ⟨rfl, rfl⟩

theorem witness_WordWrittenBigEndian : ([0x10#8, 0#8, 0#8, 0#8, 0#8] : List Byte).length ≠ 6 := by decide

/-- A finite result that is a tie (2^24 + 1, with 2^24 + 2 as far away), the least value that overflows, of both signs, and the
finite value below. -/
theorem witness_RoundsToNearestEven :
    isFinite (rne32 16777217 1) = true ∧ isFinite 0x4B800001#32 = true ∧ rne32 16777217 1 = 0x4B800000#32 ∧
    isFinite (rne32 ((2 ^ 25 - 1) * 2 ^ 103) 1) = false ∧ isFinite (rne32 (-((2 ^ 25 - 1) * 2 ^ 103)) 1) = false ∧
    isFinite (rne32 ((2 ^ 25 - 1) * 2 ^ 103 - 1) 1) = true := by decide

/-- 1.0 and 2.0 and 3.0: a sum, a difference, a product, a quotient and a fused product-sum that are not zero. -/
theorem witness_OperationsRoundOnce :
    isFinite 0x3F800000#32 = true ∧ isFinite 0x40000000#32 = true ∧ isFinite 0x40400000#32 = true ∧
    valueOf 0x3F800000#32 = 1 ∧ valueOf 0x40000000#32 = 2 ∧ valueOf 0x40400000#32 = 3 := by
  have h : ∀ v : F32, ∀ n : Int, toUnits v = n * 2 ^ 149 → valueOf v = n := fun v n hv => by
    rw [valueOf, hv, Int.cast_mul, mul_div_assoc, Int.cast_pow, Int.cast_ofNat, div_self (by positivity), mul_one]
  exact ⟨rfl, rfl, rfl, by simpa using h _ 1 (by decide), by simpa using h _ 2 (by decide),
    by simpa using h _ 3 (by decide)⟩

/-- Two points of a ROM, the lower index first. -/
theorem witness_TablesMeetConstraints : romRead defaultConfig .sevenMps 0 = some ⟨409#12, 0x00000000#32⟩ ∧
    romRead defaultConfig .sevenMps 8 = some ⟨3686#12, 0x40E75C29#32⟩ ∧ 0 < 8 := ⟨rfl, rfl, by decide⟩

/-- A Ready core; the end points and their inner neighbours. -/
theorem witness_InterpSaturates : (readyCore .sevenMps false []).ready = true ∧ (409#12).toNat ≤ 409 ∧ 3686 ≤ (3686#12).toNat := by
  decide

theorem witness_InterpOnBracket : (readyCore .sevenMps false []).ready = true ∧ 409 < (410#12).toNat ∧ (410#12).toNat < 3686 ∧
    409 < (3685#12).toNat ∧ (3685#12).toNat < 3686 ∧ romRead defaultConfig .sevenMps 0 = some ⟨409#12, 0x00000000#32⟩ ∧
    romRead defaultConfig .sevenMps 1 = some ⟨915#12, 0x3F88F5C3#32⟩ ∧ 409#12 < 915#12 ∧ 915#12 ≤ 915#12 := by decide

theorem witness_FractionInUnitInterval : ((1 : Nat) ≤ 1 ∧ (1 : Nat) ≤ 1 ∧ 1 ≤ 4095) ∧ ((1 : Nat) ≤ 1 ∧ 1 ≤ 4095 ∧ 4095 ≤ 4095) ∧
    (1 ≤ 4095 ∧ 4095 ≤ 4095 ∧ 4095 ≤ 4095) := by decide

/-- The first and the last interior point. -/
theorem witness_TieTakesBracketBelow :
    0 + 1 < Profile.sevenMps.size - 1 ∧ romRead defaultConfig .sevenMps 0 = some ⟨409#12, 0x00000000#32⟩ ∧
    romRead defaultConfig .sevenMps 1 = some ⟨915#12, 0x3F88F5C3#32⟩ ∧ 6 + 1 < Profile.sevenMps.size - 1 ∧
    romRead defaultConfig .sevenMps 6 = some ⟨3256#12, 0x40BF5C29#32⟩ ∧
    romRead defaultConfig .sevenMps 7 = some ⟨3572#12, 0x40DFAE14#32⟩ := ⟨by decide, rfl, rfl, by decide, rfl, rfl⟩

theorem witness_DefaultResultsNonDecreasing : 410#12 ≤ 411#12 ∧ (velocity .sevenMps 410#12).isSome = true ∧
    (velocity .sevenMps 411#12).isSome = true := by decide

theorem witness_DefaultResultsAccurate : romRead defaultConfig .fifteenMps 11 = some ⟨3563#12, 0x41500000#32⟩ ∧
    romRead defaultConfig .fifteenMps 12 = some ⟨3686#12, 0x41700000#32⟩ ∧ 3563#12 < 3685#12 ∧ 3685#12 ≤ 3686#12 ∧
    velocity .fifteenMps 3685#12 = some 0x416FBD66#32 := by decide

/-- The smallest subnormal and minus zero are finite operands of the default conversion. -/
theorem witness_MphIsOneProduct : defaultConfig.mphPrecision = .binary32 ∧ isFinite 0x00000001#32 = true ∧
    isFinite 0x80000000#32 = true ∧ valueOf 0x80000000#32 = 0 := ⟨rfl, rfl, rfl, by simp [valueOf, show toUnits 0x80000000#32 = 0 by decide]⟩

/-- The smallest subnormal and minus zero are finite operands of the binary64 alternative. -/
theorem witness_MphBinary64RoundsTwice : ({ defaultConfig with mphPrecision := .binary64 } : Config).mphPrecision = .binary64 ∧
    isFinite 0x00000001#32 = true ∧ isFinite 0x80000000#32 = true ∧ valueOf 0x80000000#32 = 0 :=
  ⟨rfl, rfl, rfl, by simp [valueOf, show toUnits 0x80000000#32 = 0 by decide]⟩

/-- The largest finite operand, an infinity and a NaN; both precisions; both modes. -/
theorem witness_TomphResult : (readyCore .sevenMps false []).ready = true ∧ State.reset.ready = false ∧
    (0x7F7FFFFF#32).extractLsb' 23 8 ≠ 0xFF#8 ∧ (0x7F800000#32).extractLsb' 23 8 = 0xFF#8 ∧
    (0xFFC00001#32).extractLsb' 23 8 = 0xFF#8 ∧ defaultConfig.mphPrecision = .binary32 ∧
    ({ defaultConfig with mphPrecision := .binary64 } : Config).mphPrecision = .binary64 := by decide

theorem witness_SetrangeActsOnNextCommand : (readyCore .sevenMps false []).inflight = .idle ∧
    (readyCore .sevenMps false []).ready = true ∧ 3686 ≤ (3686#12).toNat := by decide

/-- A Ready core, for every statement that asks for one and no more: ValidateResult, DecodeResult, RequestsIssued,
ReadrawCompletes, ReadmpsCompletes, ReadmphCompletes, ReadsCompose (for its second state too). -/
theorem witness_ValidateResult : (readyCore .fifteenMps true []).ready = true := by rfl
theorem witness_DecodeResult : (readyCore .fifteenMps true []).ready = true := by rfl
theorem witness_RequestsIssued : (readyCore .fifteenMps true []).ready = true := by rfl
theorem witness_ReadrawCompletes : (readyCore .fifteenMps true []).ready = true := by rfl
theorem witness_ReadmpsCompletes : (readyCore .fifteenMps true []).ready = true := by rfl
theorem witness_ReadmphCompletes : (readyCore .fifteenMps true []).ready = true := by rfl
theorem witness_ReadsCompose : (readyCore .fifteenMps true []).ready = true ∧ (readyCore .fifteenMps false []).ready = true ∧
    (readyCore .fifteenMps false []).cfg = (readyCore .fifteenMps true []).cfg ∧
    (readyCore .fifteenMps false []).range = (readyCore .fifteenMps true []).range := ⟨rfl, rfl, rfl, rfl⟩

/-- Ready, with no byte received and with one byte too few. -/
theorem witness_FailedReads : (readyCore .fifteenMps true []).ready = true ∧ ([] : List Byte).length < 5 ∧
    ([0#8, 0#8, 0#8, 0#8] : List Byte).length < 5 := by decide

/-- A valid frame, another order of its payload, a changed byte, and a change that cancels. -/
theorem witness_ChecksumLaws : (checksum ⟨0xF6#8, 0x01#8, 0x02#8, 0x03#8, 0x04#8⟩).valid = true ∧
    [0x01#8, 0x02#8, 0x03#8, 0x04#8].Perm [0x04#8, 0x03#8, 0x02#8, 0x01#8] ∧ 0x02#8 ≠ 0x01#8 ∧
    0xF6#8 + 0x01#8 + 0x02#8 + 0x03#8 + 0x04#8 = 0xF6#8 + 0x02#8 + 0x01#8 + 0x03#8 + 0x04#8 := by decide

theorem witness_NotReadyGate : State.reset.ready = false := by rfl

/-- An illegal word, a gated command, a NaN operand and a command that passes, each presented to an idle core. -/
theorem witness_StatusPriority : (readyCore .sevenMps false [.command 0#48]).inflight = .idle ∧ State.reset.ready = false ∧
    decode 0x900000000000#48 = .error .unassignedOpcode ∧ decode 0x700000000000#48 = .ok .readraw ∧
    decode 0x607FC0000000#48 = .ok (.tomph 0x7FC00000#32) ∧ (0x7FC00000#32).extractLsb' 23 8 = 0xFF#8 ∧
    decode 0x000000000000#48 = .ok .nop := ⟨rfl, rfl, rfl, rfl, rfl, by decide, rfl⟩

theorem witness_StatusCodes : Status.short.code = Status.short.code := by rfl

theorem witness_StepRunsDecodedCommand : (readyCore .sevenMps false [.command 0x500B2C000000#48]).inflight = .idle ∧
    (readyCore .sevenMps false [.command 0x500B2C000000#48]).inputs = .command 0x500B2C000000#48 :: [] ∧
    decode 0x500B2C000000#48 = .ok (.interp 2860#12) := ⟨rfl, rfl, rfl⟩

/-- Each way a step can treat the ports: an immediate result, a request, an empty port, a held command, the answer waited for,
an answer of the other kind, an answer to another request, a reset. -/
theorem witness_OneResultPerCommand :
    (after (step (readyCore .sevenMps false [.command 0#48]))).isSome = true ∧
    (after (step (readyCore .sevenMps false [.command 0x700000000000#48]))).map State.inflight =
      some (.wait .readRaw (.read 0x28#7 5)) ∧
    (after (step (readyCore .sevenMps false []))).isSome = true ∧
    takeInput (waitingCore .readRaw [.command 0#48]).inflight [.command 0#48] = none ∧
    takeInput (waitingCore .readRaw []).inflight [.command 0#48, .answer 0 (.read .noAck)] =
      some (.answer 0 (.read .noAck), [.command 0#48]) ∧
    (waitingCore .readRaw []).awaits 0 = true ∧ (waitingCore .readRaw []).awaits 1 = false ∧
    (after (step (waitingCore .readRaw [.answer 0 (.read .noAck)]))).map State.inflight = some .idle ∧
    (after (step (waitingCore .readRaw [.answer 0 (.probe true)]))).map State.inflight =
      some (.wait .readRaw (.read 0x28#7 5)) ∧
    takeInput (waitingCore .readRaw []).inflight [.reset] = some (.reset, []) ∧
    (after (step (waitingCore .readRaw [.reset]))).map (fun t => (t.inflight, t.results)) = some (.idle, []) := by decide

/-- READY set by an acknowledged probe, cleared by one that is not, cleared by reset, each the input taken. -/
theorem witness_ReadyWriters :
    (after (step { waitingCore .probe [.answer 0 (.probe true)] with ready := false })).map State.ready = some true ∧
    (after (step (waitingCore .probe [.answer 0 (.probe false)]))).map State.ready = some false ∧
    (after (step (readyCore .sevenMps false [.reset]))).map State.ready = some false := by decide

/-- RANGE changed by SETRANGE and by reset. -/
theorem witness_RangeWriters :
    (after (step (readyCore .sevenMps false [.command 0x210000000000#48]))).map State.range = some .fifteenMps ∧
    (after (step (readyCore .fifteenMps false [.reset]))).map State.range = some .sevenMps := by decide

/-- LAST_VALID changed by VALIDATE, by a waiting READ command's answer, and by reset, each the input taken. -/
theorem witness_LastValidWriters :
    (after (step (readyCore .sevenMps false [.command 0x30F601020304#48]))).map State.lastValid = some true ∧
    (after (step (waitingCore .readMps [.answer 0 (.read .noAck)]))).map State.lastValid = some false ∧
    (after (step (readyCore .sevenMps true [.reset]))).map State.lastValid = some false := by decide

theorem witness_RomNeverWritten : (after (step (readyCore .sevenMps true [.reset]))).isSome = true := by decide

/-- A waiting core whose host holds two commands. -/
theorem witness_UnansweredRequestHangs : (waitingCore .probe [.command 0#48, .command 1#48]).inflight =
      .wait .probe (.probe 0x28#7) ∧
    ∀ e ∈ (waitingCore .probe [.command 0#48, .command 1#48]).inputs, ∃ w, e = .command w := by
  refine ⟨rfl, fun e he => ?_⟩
  simp only [waitingCore, List.mem_cons, List.not_mem_nil, or_false] at he
  rcases he with rfl | rfl <;> exact ⟨_, rfl⟩

theorem witness_NoCommandAcceptedWhileWaiting : (waitingCore .readMph [.command 0#48, .answer 0 (.read .noAck)]).inflight ≠ .idle ∧
    (after (step (waitingCore .readMph [.command 0#48, .answer 0 (.read .noAck)]))).map State.inputs = some [.command 0#48] := by
  decide

/-- An answer while idle, and an answer to a request that is not the outstanding one. -/
theorem witness_LateAnswerDiscarded : (readyCore .sevenMps true []).inflight = .idle ∧
    5 + 1 ≠ (waitingCore .readMps []).requests.length := by decide

/-- A waiting core with a held command, and an idle one. -/
theorem witness_ResetEvent : (waitingCore .readMps []).inflight ≠ .idle ∧ ([] : List Word48) = [] := by decide

/-- A core that waits for its first READMPS meets the invariant, and a step answers it. -/
theorem witness_InvKeptByStep : (waitingCore .readMps [.answer 0 (.read .noAck)]).Inv ∧
    (after (step (waitingCore .readMps [.answer 0 (.read .noAck)]))).isSome = true := by
  refine ⟨⟨fun c req h => ?_, fun r hr => ?_, fun r hr => ?_⟩, by decide⟩
  · cases h
    exact ⟨rfl, rfl, fun _ => rfl⟩
  · simp only [waitingCore, List.mem_singleton] at hr
    exact .inr hr
  · simp [waitingCore, State.reset] at hr

/-- Operands at the ends of their ranges. -/
theorem witness_AssemblerOperandRanges : (Asm.interp 4095).assemble = some 0x500FFF000000#48 ∧ 4095 < 4096 ∧
    (Asm.validate [255, 0, 0, 0, 0]).assemble = some 0x30FF00000000#48 := ⟨rfl, by decide, rfl⟩

end Sys2Proof.Machine.Tests
end

