-- ==== Sys2Proof/Proofs/Tables.lean ====
section
/-! The calibration tables of every instantiation (00_scope.md R7): the laws of `romRead`, carried over from whole units of
2^-149 to the rational values the obligations speak of. -/

namespace Sys2Proof.Machine

/-- The value of a pattern orders as its whole number of units does. -/
theorem valueOf_le_valueOf {v w : F32} : valueOf v ≤ valueOf w ↔ toUnits v ≤ toUnits w := by
  rw [valueOf, valueOf, div_le_div_iff_of_pos_right (by positivity), Int.cast_le]

/-- A value is non-negative exactly when its number of units is; minus zero counts (log entry 18). -/
theorem valueOf_nonneg {v : F32} : 0 ≤ valueOf v ↔ 0 ≤ toUnits v := by
  rw [valueOf, le_div_iff₀ (by positivity), zero_mul, Int.cast_nonneg_iff]

/-- Settles O11: every instantiation carries the check of R7 on both its tables, and each clause is one law of its ROM. -/
theorem tablesMeetConstraints : Obligations.TablesMeetConstraints := by
  unfold Obligations.TablesMeetConstraints
  intro c
  refine ⟨table_length c .sevenMps, table_length c .fifteenMps, romRead_first c, romRead_last c .sevenMps,
    romRead_last c .fifteenMps, ?increasing, ?velocities⟩
  case increasing =>
    intro p j k a b hjk hj hk
    exact ⟨table_raw_lt c p hj hk hjk, valueOf_le_valueOf.2 (table_vel_le c p hj hk hjk)⟩
  case velocities =>
    intro p k a hk
    obtain ⟨hfinite, hnonneg⟩ := table_vel_ok c p hk
    exact ⟨hfinite, valueOf_nonneg.2 hnonneg⟩

end Sys2Proof.Machine
end

