-- ==== Sys2Proof/Proofs/Encoding.lean ====
section
/-! Command words (30_encoding.md): the bytes a word is written in, which words are `ILLEGAL`, and what a word does when it is
presented while the core is idle. -/

namespace Sys2Proof

/-- Appending a byte below a bit vector, as numbers. -/
theorem toNat_append_byte {n : Nat} (x : BitVec n) (b : Byte) : (x ++ b).toNat = x.toNat * 256 + b.toNat := by
  rw [BitVec.toNat_append, ← Nat.shiftLeft_add_eq_or_of_lt b.isLt, Nat.shiftLeft_eq]

/-- The bytes of a word put together from six bytes are those bytes, in their order (R90). -/
theorem wordBytes_append (b0 b1 b2 b3 b4 b5 : Byte) :
    Machine.wordBytes (b0 ++ b1 ++ b2 ++ b3 ++ b4 ++ b5) = [b0, b1, b2, b3, b4, b5] := by
  have h := Option.some.inj (wordOfBytes_wordBytes (b0 ++ b1 ++ b2 ++ b3 ++ b4 ++ b5))
  rw [append_inj, append_inj, append_inj, append_inj, append_inj] at h
  obtain ⟨⟨⟨⟨⟨h0, h1⟩, h2⟩, h3⟩, h4⟩, h5⟩ := h
  rw [Machine.wordBytes, h0, h1, h2, h3, h4, h5]

/-- Only six bytes write a command word (R90, R101). -/
theorem length_of_wordOfBytes {bs : List Byte} {w : Word48} (h : Machine.wordOfBytes bs = some w) : bs.length = 6 := by
  unfold Machine.wordOfBytes at h
  split at h
  · rfl
  · cases h

/-- Bytes of any other count are no command (R101). -/
theorem decodeBytes_wrongLength {bs : List Byte} (h : bs.length ≠ 6) : decodeBytes bs = .error .wrongLength := by
  cases hw : Machine.wordOfBytes bs with
  | none => rw [decodeBytes, hw]
  | some w => exact absurd (length_of_wordOfBytes hw) h

/-- Settles O6: the word is the concatenation of its bytes, each worth 256 times the one after it. -/
theorem wordWrittenBigEndian : Obligations.WordWrittenBigEndian := by
  unfold Obligations.WordWrittenBigEndian
  refine ⟨fun b0 b1 b2 b3 b4 b5 => ?_, fun bs => decodeBytes_wrongLength⟩
  refine ⟨b0 ++ b1 ++ b2 ++ b3 ++ b4 ++ b5, wordBytes_append .., ?_, rfl⟩
  simp only [toNat_append_byte]

/-- A mask asks of each part of a concatenation that its own masked bits be zero. -/
theorem masked_append_eq_zero {m n : Nat} (x mx : BitVec m) (y my : BitVec n) :
    (x ++ y) &&& (mx ++ my) = 0 ↔ x &&& mx = 0 ∧ y &&& my = 0 := by
  rw [BitVec.and_append, show (0 : BitVec (m + n)) = (0 : BitVec m) ++ (0 : BitVec n) from BitVec.zero_append_zero.symm,
    append_inj]

/-- Format R reserves `O[39:36]` and `O[23:0]` (R94). -/
theorem reservedR_iff (w : Word48) :
    w.extractLsb' 0 40 &&& 0xF000FFFFFF = 0 ↔ w.extractLsb' 36 4 = 0 ∧ w.extractLsb' 0 24 = 0 := by
  have low : w.extractLsb' 0 36 = w.extractLsb' 24 12 ++ w.extractLsb' 0 24 :=
    (BitVec.extractLsb'_append_extractLsb'_eq_extractLsb' (start₁ := 0) (len₁ := 24) rfl).symm
  have fields : w.extractLsb' 0 40 = w.extractLsb' 36 4 ++ w.extractLsb' 0 36 :=
    (BitVec.extractLsb'_append_extractLsb'_eq_extractLsb' (start₁ := 0) (len₁ := 36) rfl).symm
  rw [fields, low, show (0xF000FFFFFF : BitVec 40) = BitVec.allOnes 4 ++ (0#12 ++ BitVec.allOnes 24) from rfl,
    masked_append_eq_zero, masked_append_eq_zero]
  simp only [BitVec.and_allOnes, BitVec.and_zero, BitVec.ofNat_eq_ofNat, true_and]

/-- Format V reserves `O[7:0]` (R95). -/
theorem reservedV_iff (w : Word48) : w.extractLsb' 0 40 &&& 0xFF = 0 ↔ w.extractLsb' 0 8 = 0 := by
  have fields : w.extractLsb' 0 40 = w.extractLsb' 8 32 ++ w.extractLsb' 0 8 :=
    (BitVec.extractLsb'_append_extractLsb'_eq_extractLsb' (start₁ := 0) (len₁ := 8) rfl).symm
  rw [fields, show (0xFF : BitVec 40) = 0#32 ++ BitVec.allOnes 8 from rfl, masked_append_eq_zero]
  simp only [BitVec.and_allOnes, BitVec.and_zero, BitVec.ofNat_eq_ofNat, true_and]

/-- Format S reserves `M[3:1]` (R96). -/
theorem reservedS_iff (w : Word48) : Machine.modField w &&& 0xE = 0 ↔ w.extractLsb' 41 3 = 0 := by
  have fields : Machine.modField w = w.extractLsb' 41 3 ++ w.extractLsb' 40 1 :=
    (BitVec.extractLsb'_append_extractLsb'_eq_extractLsb' (start₁ := 40) (len₁ := 1) rfl).symm
  rw [fields, show (0xE : BitVec 4) = BitVec.allOnes 3 ++ 0#1 from rfl, masked_append_eq_zero]
  simp only [BitVec.and_allOnes, BitVec.and_zero, BitVec.ofNat_eq_ofNat, and_true]

/-- A row tried before the rest of the map adds its own condition to those an illegal word fails. -/
theorem error_ite_iff {p : Prop} [Decidable p] {i : Instr} {rest : Except DecodeError Instr} :
    (∃ e, (if p then .ok i else rest) = .error e) ↔ ¬ p ∧ ∃ e, rest = .error e := by
  by_cases h : p <;> simp [h]

/-- An opcode is unassigned or one of the nine of R97. -/
theorem opcode_cases (a : BitVec 4) :
    9#4 ≤ a ∨ a = 0 ∨ a = 1 ∨ a = 2 ∨ a = 3 ∨ a = 4 ∨ a = 5 ∨ a = 6 ∨ a = 7 ∨ a = 8 := by
  decide +revert

/-- The variants of opcode 7 that stand for no command are those other than READRAW, READMPS and READMPH (R97). -/
theorem unassignedVariant_iff (b : BitVec 4) : 3#4 ≤ b ↔ b ≠ 0 ∧ b ≠ 1 ∧ b ≠ 2 := by decide +revert

/-- Which fields the decoder rejects (R99), the reserved bits of formats R, V and S given by the masks of R97. -/
theorem decode_error_iff (a b : BitVec 4) (o : BitVec 40) : (∃ e, decode (a ++ b ++ o) = .error e) ↔
    9#4 ≤ a ∨ (a = 7 ∧ 3#4 ≤ b) ∨ ((a = 0 ∨ a = 1 ∨ a = 2 ∨ a = 7 ∨ a = 8) ∧ o ≠ 0) ∨
    (a = 5 ∧ o &&& 0xF000FFFFFF ≠ 0) ∨ (a = 6 ∧ o &&& 0xFF ≠ 0) ∨
    ((a = 0 ∨ a = 1 ∨ a = 3 ∨ a = 4 ∨ a = 5 ∨ a = 6 ∨ a = 8) ∧ b ≠ 0) ∨ (a = 2 ∧ b &&& 0xE ≠ 0) := by
  rw [decode_fields]
  simp only [error_ite_iff, Except.error.injEq, exists_eq', and_true, unassignedVariant_iff]
  rcases opcode_cases a with unassigned | rfl | rfl | rfl | rfl | rfl | rfl | rfl | rfl | rfl
  · have ne : ∀ c : BitVec 4, c < 9#4 → a ≠ c := fun c hc hac => absurd (hac ▸ unassigned) (BitVec.not_le.2 hc)
    simp [unassigned, ne]
  -- An assigned opcode leaves only its own rows and its own clauses standing.
  all_goals simp only [BitVec.ofNat_eq_ofNat, BitVec.reduceEq, true_and, false_and, false_or]
  all_goals tauto

end Sys2Proof

namespace Sys2Proof.Machine

/-- Settles O55: a pseudo-instruction's word is the encoding of its one command. -/
theorem pseudoInstructions : Obligations.PseudoInstructions := by
  unfold Obligations.PseudoInstructions
  exact ⟨rfl, rfl, rfl, rfl, rfl⟩

/-- A command presented while the core is idle is taken by the very next step (R252). -/
theorem step_command {s : State} (h : s.inflight = .idle) (w : Word48) (rest : List Input) :
    step { s with inputs := .command w :: rest } = acceptCommand w { s with inputs := rest } := by
  simp only [step, stepOnce, h, takeInput, receive]

/-- A word that is no command gives the bare result `ILLEGAL` (R99, R281). -/
theorem acceptCommand_illegal {w : Word48} {e : DecodeError} (h : decode w = .error e) (s : State) :
    acceptCommand w s = .next (s.emit { status := .illegal }) := by
  simp only [acceptCommand, h, State.fail_eq]

/-- Settles O5: the rejected fields are those the masks of R97 leave, and a rejected word is accepted with its one bare result. -/
theorem illegalWords : Obligations.IllegalWords := by
  unfold Obligations.IllegalWords
  intro w
  constructor
  · have fields := decode_error_iff (opField w) (modField w) (w.extractLsb' 0 40)
    simp only [word_fields, ne_eq, reservedR_iff, reservedV_iff, reservedS_iff, not_and_or] at fields
    exact fields
  · intro e illegal s rest idle
    rw [step_command idle, acceptCommand_illegal illegal]
    rfl

end Sys2Proof.Machine
end

