-- ==== Sys2Proof/Proofs/Validator.lean ====
section
/-! The checksum validator (41_validator.md): each of its 8-bit intermediates as a number modulo 256, and VALIDATE while Ready. -/

namespace Sys2Proof.Machine

/-- The payload sum wraps once, however its additions are grouped (R150). -/
theorem checksum_sum_toNat (f : Frame) :
    (checksum f).sum.toNat = (f.f1.toNat + f.f2.toNat + f.f3.toNat + f.f4.toNat) % 256 := by
  simp only [checksum, BitVec.toNat_add, Nat.mod_add_mod, Nat.reducePow]

/-- `calc` is the two's complement of the payload sum (R150). -/
theorem checksum_calculated_toNat (f : Frame) :
    (checksum f).calculated.toNat = (256 - (checksum f).sum.toNat) % 256 := by
  simp only [checksum, BitVec.zero_sub, BitVec.toNat_neg, Nat.reducePow]

/-- The overall sum adds the checksum byte to the payload sum (R150). -/
theorem checksum_overall_toNat (f : Frame) :
    (checksum f).overall.toNat = ((checksum f).sum.toNat + f.f0.toNat) % 256 :=
  BitVec.toNat_add _ _

/-- A frame is valid exactly when its overall sum is zero (R150). -/
theorem checksum_valid_eq (f : Frame) : (checksum f).valid = decide ((checksum f).overall.toNat = 0) := by
  rw [Bool.eq_iff_iff, decide_eq_true_iff]
  exact beq_iff_eq.trans BitVec.toNat_eq

/-- VALIDATE while Ready writes LAST_VALID and gives the check's record (R151). -/
theorem exec_validate_of_ready {s : State} (ready : s.ready = true) (f : Frame) :
    exec (.validate f) s = .next ((s.setLastValid (checksum f).valid).emit (checksum f).result) :=
  gated_of_ready ready _

/-- Settles O23: the numbers of the statement are those of the check, and the step writes its validity and its record alone. -/
theorem validateResult : Obligations.ValidateResult := by
  unfold Obligations.ValidateResult
  intro s f ready
  rw [exec_validate_of_ready ready]
  simp only [← checksum_sum_toNat, ← checksum_calculated_toNat, ← checksum_overall_toNat, ← checksum_valid_eq,
    BitVec.ofNat_toNat, BitVec.setWidth_eq]
  rfl

end Sys2Proof.Machine
end

