-- ==== Sys2Proof/Proofs/Extractor.lean ====
section
/-! The raw-sample extractor (42_extract.md): the extracted sample as fields and as a number, and DECODE while Ready. -/

namespace Sys2Proof.Machine

/-- The sample is the low nibble of frame byte 1 above frame byte 2 (R170). -/
theorem extract_eq_append (f1 f2 : Byte) : extract f1 f2 = f1.setWidth 4 ++ f2 := by
  have shifted : (f1 &&& 0x0F#8).setWidth 12 <<< 8 = f1.setWidth 4 ++ 0#8 := by decide +revert
  have low : f2.setWidth 12 = 0#4 ++ f2 := BitVec.setWidth_eq_append (by decide)
  rw [extract, shifted, low, BitVec.or_append, BitVec.or_zero, BitVec.zero_or]

/-- The sample as a number: the low nibble of frame byte 1 is worth 256 times frame byte 2 (R170). -/
theorem extract_toNat (f1 f2 : Byte) : (extract f1 f2).toNat = f1.toNat % 16 * 256 + f2.toNat := by
  rw [extract_eq_append, toNat_append_byte, BitVec.toNat_setWidth]

/-- DECODE while Ready gives the sample of the frame alone and writes no state (R171). -/
theorem exec_decode_of_ready {s : State} (ready : s.ready = true) (f : Frame) :
    exec (.decode f) s = .next (s.emit { status := .ok, raw := some (extract f.f1 f.f2) }) :=
  gated_of_ready ready _

/-- Settles O26: the number of the statement is that of the sample, and the step only appends its record. -/
theorem decodeResult : Obligations.DecodeResult := by
  unfold Obligations.DecodeResult
  intro s f ready
  rw [exec_decode_of_ready ready, ← extract_toNat, BitVec.ofNat_toNat, BitVec.setWidth_eq]
  rfl

end Sys2Proof.Machine
end

