-- ==== Sys2Proof/Proofs/Interpolation.lean ====
section
/-! The interpolation engine (43_conversion.md): INTERP while Ready, and the range its result lies in. -/

namespace Sys2Proof.Machine

/-- INTERP while Ready gives the engine's value on the current RANGE and writes no state (R211). -/
theorem exec_interp_of_ready {s : State} (ready : s.ready = true) {raw : Raw} {v : F32}
    (value : interp s.cfg s.range raw = some v) :
    exec (.interp raw) s = .next (s.emit { status := .ok, value := some v }) := by
  rw [exec, execInterp, gated_of_ready ready, withInterp, value]

/-- Settles O13: floor and ceiling are the engine's first two steps (R191), and every value it gives is plain (R194). -/
theorem interpSaturates : Obligations.InterpSaturates := by
  unfold Obligations.InterpSaturates
  intro s raw ready
  refine ⟨?floor, ?ceiling, ?finiteNonNegative⟩
  case floor =>
    intro h
    exact exec_interp_of_ready ready (interp_floor s.cfg s.range h)
  case ceiling =>
    intro h
    exact exec_interp_of_ready ready (interp_ceiling s.cfg s.range h)
  case finiteNonNegative =>
    obtain ⟨v, value⟩ := interp_isSome s.cfg s.range raw
    exact ⟨v, exec_interp_of_ready ready value, interp_plain s.cfg s.range raw value⟩

end Sys2Proof.Machine
end

