-- ==== Sys2Proof/Proofs/Modes.lean ====
section
/-! The mode gate and the operand check (60_exceptions.md): what the gated commands do while not Ready, and TOMPH in either mode. -/

namespace Sys2Proof.Machine

/-- Finite is what the operand check of R286 tests: an exponent field other than all ones. -/
theorem isFinite_iff_exponent {v : F32} : isFinite v = true ↔ v.extractLsb' 23 8 ≠ 0xFF#8 := bne_iff_ne

/-- The first multiply of R197: one binary32 product. -/
theorem mph_of_binary32 {c : Config} (h : c.mphPrecision = .binary32) (v : F32) : mph c v = fmul v 0x400F29F7#32 := by
  rw [mph, h, mphFactor]

/-- The alternative multiply of R197: the binary64 product rounded again. -/
theorem mph_of_binary64 {c : Config} (h : c.mphPrecision = .binary64) (v : F32) : mph c v = mph64 v := by
  rw [mph, h]

/-- TOMPH while Ready gives the mph value of a finite operand and writes no state (R212). -/
theorem exec_tomph_of_finite {s : State} (ready : s.ready = true) {v : F32} (finite : isFinite v = true) :
    exec (.tomph v) s = .next (s.emit { status := .ok, value := some (mph s.cfg v) }) := by
  rw [exec, execTomph, gated_of_ready ready, if_pos finite]

/-- TOMPH while Ready refuses an operand that is not finite (R286). -/
theorem exec_tomph_of_not_finite {s : State} (ready : s.ready = true) {v : F32} (notFinite : ¬ isFinite v = true) :
    exec (.tomph v) s = .next (s.emit { status := .badop }) := by
  rw [exec, execTomph, gated_of_ready ready, if_neg notFinite, State.fail_eq]

/-- Settles O37: the rule of each of the seven commands stands behind the mode gate, which answers in its place. -/
theorem notReadyGate : Obligations.NotReadyGate := by
  unfold Obligations.NotReadyGate
  intro s notReady
  have refused : ∀ k, gated s k = .next (s.emit { status := .notready }) := gated_of_not_ready notReady
  exact ⟨fun _ => refused _, fun _ => refused _, fun _ => refused _, fun _ => refused _, refused _, refused _, refused _⟩

/-- Settles O20: the gate comes first, then the operand check, then the multiply of the instance's precision. -/
theorem tomphResult : Obligations.TomphResult := by
  unfold Obligations.TomphResult
  intro s v
  refine ⟨?binary32, ?binary64, ?badOperand, ?notReady⟩
  case binary32 =>
    intro ready exponent precision
    rw [← mph_of_binary32 precision]
    exact exec_tomph_of_finite ready (isFinite_iff_exponent.2 exponent)
  case binary64 =>
    intro ready exponent precision
    rw [← mph_of_binary64 precision]
    exact exec_tomph_of_finite ready (isFinite_iff_exponent.2 exponent)
  case badOperand =>
    intro ready exponent
    exact exec_tomph_of_not_finite ready fun finite => isFinite_iff_exponent.1 finite exponent
  case notReady =>
    intro notReady
    obtain ⟨-, -, -, tomphRefused, -⟩ := notReadyGate s notReady
    exact tomphRefused v

end Sys2Proof.Machine
end

