-- ==== Sys2Proof/Proofs/OpcodeMap.lean ====
section
/-! The opcode map as a set of rows (30_encoding.md R97): no word matches two of them, so decoding is "the row that accepts the
word", and encoding and decoding are inverse to each other (R92 to R99). -/

namespace Sys2Proof

/-- Two rows no word can match together: their matches differ on a bit that both masks look at. -/
abbrev Row.Apart (r r' : Row) : Prop := r.pattern &&& r'.mask ≠ r'.pattern &&& r.mask

/-- No word matches two rows that are apart. -/
theorem Row.Apart.not_both {r r' : Row} (apart : r.Apart r') {w : Word48} (h : r.accepts w = true) : r'.accepts w = false := by
  rw [Row.accepts, beq_iff_eq] at h
  rw [Bool.eq_false_iff, ne_eq, Row.accepts, beq_iff_eq]
  intro h'
  apply apart
  calc r.pattern &&& r'.mask = w &&& r.mask &&& r'.mask := by rw [h]
    _ = w &&& r'.mask &&& r.mask := by rw [BitVec.and_assoc, BitVec.and_comm r.mask, BitVec.and_assoc]
    _ = r'.pattern &&& r.mask := by rw [h']

/-- The rows of the opcode map are pairwise apart (R97). -/
theorem opcodeMap_apart : opcodeMap.Pairwise Row.Apart := by decide

/-- With rows that are apart, trying them in order finds the row that accepts the word, wherever it stands. -/
theorem decodeRows_eq_ok_iff {rows : List Row} (apart : rows.Pairwise Row.Apart) (w : Word48) (i : Instr) :
    decodeRows w rows = .ok i ↔ ∃ r ∈ rows, r.accepts w = true ∧ r.build w = i := by
  induction rows with
  | nil => simp [decodeRows]
  | cons r rs ih =>
    obtain ⟨first, others⟩ := List.pairwise_cons.1 apart
    rw [decodeRows]
    by_cases h : r.accepts w = true
    · have rest : ∀ r' ∈ rs, r'.accepts w = false := fun r' hr' => (first r' hr').not_both h
      simp +contextual [h, rest]
    · simp [h, ih others]

/-- Decoding is finding the row that accepts the word (R97, R98). -/
theorem decode_eq_ok_iff (w : Word48) (i : Instr) :
    decode w = .ok i ↔ ∃ r ∈ opcodeMap, r.accepts w = true ∧ r.build w = i :=
  decodeRows_eq_ok_iff opcodeMap_apart w i

/-- A word matches one row at most (R97). -/
theorem opcodeMap_accepts_unique {w : Word48} {r r' : Row} (hr : r ∈ opcodeMap) (hr' : r' ∈ opcodeMap)
    (h : r.accepts w = true) (h' : r'.accepts w = true) : r = r' := by
  have symm : Std.Symm Row.Apart := ⟨fun _ _ apart => apart.symm⟩
  by_contra hne
  have apart : r.Apart r' := opcodeMap_apart.forall hr hr' hne
  rw [apart.not_both h] at h'
  cases h'

/-- Settles O3: only the rows of a command's own mnemonic build it, and each of them accepts by its mask and match. -/
theorem opcodeMapRows : Obligations.OpcodeMapRows := by
  unfold Obligations.OpcodeMapRows
  refine ⟨fun w => ?rows, fun w r r' hr hr' h h' => ?oneRow⟩
  case rows =>
    simp only [decode_eq_ok_iff, opcodeMap, rowsZS, rowsFRV, Row.accepts]
    refine ⟨?_, ?_, ?_, ?_, ?_, ?_, ?_, ?_, ?_, ?_, ?_⟩ <;> simp
  case oneRow =>
    rw [opcodeMap_accepts_unique hr hr' h h']

/-- The profile of format S is the bit `M[0]` (R96). -/
theorem operandS_eq (w : Word48) : Machine.operandS w = if w.getLsbD 40 then .fifteenMps else .sevenMps := by
  have bit : w.extractLsb' 40 1 = BitVec.ofBool (w.getLsbD 40) := by
    apply BitVec.eq_of_getLsbD_eq
    simp
  rw [Machine.operandS, bit]
  cases w.getLsbD 40 <;> rfl

/-- Settles O4: the row that accepts the word builds the command from the operand fields of its format. -/
theorem operandPlaces : Obligations.OperandPlaces := by
  unfold Obligations.OperandPlaces
  intro w
  simp only [decode_eq_ok_iff, opcodeMap, rowsZS, rowsFRV, List.cons_append, List.nil_append, List.exists_mem_cons_iff,
    List.not_mem_nil, false_and, exists_false, reduceCtorEq, and_false, or_false, false_or, Instr.setrange.injEq,
    Instr.validate.injEq, Instr.decode.injEq, Instr.interp.injEq, Instr.tomph.injEq]
  refine ⟨?formatF, ?formatR, ?formatV, ?formatS⟩
  case formatF =>
    rintro f (⟨-, rfl⟩ | ⟨-, rfl⟩) <;> exact ⟨rfl, rfl, rfl, rfl, rfl⟩
  case formatR =>
    rintro raw ⟨-, rfl⟩
    rfl
  case formatV =>
    rintro v ⟨-, rfl⟩
    rfl
  case formatS =>
    rintro p ⟨-, rfl⟩
    exact operandS_eq w

/-- Format R: the operand bits are a reserved nibble, the raw value, and 24 reserved bits (R92, R94). -/
theorem formatR_fields (w : Word48) :
    w.extractLsb' 0 40 = w.extractLsb' 36 4 ++ (Machine.operandR w ++ w.extractLsb' 0 24) := by
  have low : Machine.operandR w ++ w.extractLsb' 0 24 = w.extractLsb' 0 36 :=
    BitVec.extractLsb'_append_extractLsb'_eq_extractLsb' (start₁ := 0) (len₁ := 24) rfl
  rw [low]
  exact (BitVec.extractLsb'_append_extractLsb'_eq_extractLsb' (start₁ := 0) (len₁ := 36) rfl).symm

/-- Format V: the operand bits are the value and a reserved byte (R92, R95). -/
theorem formatV_fields (w : Word48) : w.extractLsb' 0 40 = Machine.operandV w ++ w.extractLsb' 0 8 :=
  (BitVec.extractLsb'_append_extractLsb'_eq_extractLsb' (start₁ := 0) (len₁ := 8) rfl).symm

/-- The word of INTERP by its fields (R92). -/
theorem encode_interp (raw : Raw) : encode (.interp raw) = 0x5#4 ++ 0x0#4 ++ (0#4 ++ (raw ++ 0#24)) := by
  rw [encode]
  apply BitVec.eq_of_getLsbD_eq
  intro i hi
  simp only [BitVec.getLsbD_append]
  grind

/-- The word of TOMPH by its fields (R92). -/
theorem encode_tomph (v : F32) : encode (.tomph v) = 0x6#4 ++ 0x0#4 ++ (v ++ 0#8) := by
  rw [encode]
  apply BitVec.eq_of_getLsbD_eq
  intro i hi
  simp only [BitVec.getLsbD_append]
  grind

/-- Reading the raw value of format R back (R94). -/
theorem operandR_append (h : BitVec 8) (raw : Raw) : Machine.operandR (h ++ (0#4 ++ (raw ++ 0#24))) = raw := by
  have fields := formatR_fields (h ++ (0#4 ++ (raw ++ 0#24)))
  rw [BitVec.extractLsb'_append_eq_right, append_inj, append_inj] at fields
  obtain ⟨-, operand, -⟩ := fields
  exact operand.symm

/-- Reading the value of format V back (R95). -/
theorem operandV_append (h : BitVec 8) (v : F32) : Machine.operandV (h ++ (v ++ 0#8)) = v := by
  have fields := formatV_fields (h ++ (v ++ 0#8))
  rw [BitVec.extractLsb'_append_eq_right, append_inj] at fields
  obtain ⟨operand, -⟩ := fields
  exact operand.symm

/-- The reserved bits of an encoded raw value are zero (R94). -/
theorem reservedR_append (raw : Raw) : (0#4 ++ (raw ++ 0#24)) &&& 0xF000FFFFFF#40 = 0 := by
  rw [show 0xF000FFFFFF#40 = 0xF#4 ++ (0#12 ++ 0xFFFFFF#24) from rfl, masked_append_eq_zero, masked_append_eq_zero]
  exact ⟨BitVec.zero_and, BitVec.and_zero, BitVec.zero_and⟩

/-- The reserved bits of an encoded value are zero (R95). -/
theorem reservedV_append (v : F32) : (v ++ 0#8) &&& 0xFF#40 = 0 := by
  rw [show 0xFF#40 = 0#32 ++ 0xFF#8 from rfl, masked_append_eq_zero]
  exact ⟨BitVec.and_zero, BitVec.zero_and⟩

/-- Settles O1: the fields of an encoded command select its own row, whose operands read back. -/
theorem decodeOfEncode : Obligations.DecodeOfEncode := by
  unfold Obligations.DecodeOfEncode
  intro i
  cases i with
  | nop | probe | readraw | readmps | readmph | getstate => rfl
  | setrange p => cases p <;> rfl
  | validate f =>
    rw [encode, decode_fields, operandF_append]
    rfl
  | decode f =>
    rw [encode, decode_fields, operandF_append]
    rfl
  | interp raw =>
    rw [encode_interp, decode_fields, operandR_append]
    simpa using reservedR_append raw
  | tomph v =>
    rw [encode_tomph, decode_fields, operandV_append]
    simpa using reservedV_append v

/-- The word of SETRANGE is opcode 2 and a modifier with no bit but the selector's (R92, R96). -/
theorem encode_setrange_operandS {w : Word48} {m : BitVec 4} (fields : w = 0x2#4 ++ m ++ 0#40) (reserved : m &&& 0xE = 0) :
    encode (.setrange (Machine.operandS w)) = w := by
  have selector : ∀ m : BitVec 4, m &&& 0xE = 0 → m = 0 ∨ m = 1 := by decide
  rcases selector m reserved with rfl | rfl <;> rw [fields] <;> rfl

/-- Settles O2: the row of the command fixes opcode, modifier and reserved bits, and its operands are all the other bits. -/
theorem encodeOfDecode : Obligations.EncodeOfDecode := by
  unfold Obligations.EncodeOfDecode
  intro w i h
  have rows := decode_cases (Machine.opField w) (Machine.modField w) (w.extractLsb' 0 40)
  rw [word_fields, h] at rows
  suffices fields : encode i = Machine.opField w ++ Machine.modField w ++ w.extractLsb' 0 40 from fields.trans (word_fields w)
  cases i with
  | nop | probe | readraw | readmps | readmph | getstate =>
    simp only [Except.ok.injEq, reduceCtorEq, false_and, and_false, and_true, or_false, false_or] at rows
    obtain ⟨op, modifier, operand⟩ := rows
    rw [op, modifier, operand]
    rfl
  | setrange p =>
    simp only [Except.ok.injEq, Instr.setrange.injEq, reduceCtorEq, false_and, and_false, or_false, false_or] at rows
    obtain ⟨⟨op, modifier, operand⟩, rfl⟩ := rows
    rw [word_fields]
    exact encode_setrange_operandS ((word_fields w).symm.trans (by rw [op, operand]; rfl)) modifier
  | validate f =>
    simp only [Except.ok.injEq, Instr.validate.injEq, reduceCtorEq, false_and, and_false, or_false, false_or] at rows
    obtain ⟨⟨op, modifier⟩, rfl⟩ := rows
    rw [encode, frameField_operandF, op, modifier]
    rfl
  | decode f =>
    simp only [Except.ok.injEq, Instr.decode.injEq, reduceCtorEq, false_and, and_false, or_false, false_or] at rows
    obtain ⟨⟨op, modifier⟩, rfl⟩ := rows
    rw [encode, frameField_operandF, op, modifier]
    rfl
  | interp raw =>
    simp only [Except.ok.injEq, Instr.interp.injEq, reduceCtorEq, false_and, and_false, or_false, false_or] at rows
    obtain ⟨⟨op, modifier, reserved⟩, rfl⟩ := rows
    obtain ⟨high, low⟩ := (reservedR_iff w).1 reserved
    rw [encode_interp, formatR_fields, op, modifier, high, low]
    rfl
  | tomph v =>
    simp only [Except.ok.injEq, Instr.tomph.injEq, reduceCtorEq, false_and, and_false, or_false, false_or] at rows
    obtain ⟨⟨op, modifier, reserved⟩, rfl⟩ := rows
    rw [encode_tomph, formatV_fields, op, modifier, (reservedV_iff w).1 reserved]
    rfl

/-- Settles O7: each word is the one its format writes for the command, read by the row of that format. -/
theorem sampleWordsDecode : Obligations.SampleWordsDecode := by
  unfold Obligations.SampleWordsDecode
  exact ⟨rfl, rfl, rfl, rfl, rfl, rfl, rfl, rfl, rfl⟩

end Sys2Proof

namespace Sys2Proof.Machine

/-- A frame operand is refused unless it is five numbers of a byte each (R102). -/
theorem frameOperand_eq_none_iff (bytes : List Nat) :
    frameOperand bytes = none ↔ ¬ (bytes.length = 5 ∧ ∀ b ∈ bytes, b ≤ 255) := by
  unfold frameOperand
  split
  · simp [byteInRange]
  · next wrongCount =>
    refine iff_of_true rfl fun ⟨five, _⟩ => ?_
    match bytes, five with
    | [a, b, c, d, e], _ => exact wrongCount a b c d e rfl

/-- A word that is produced is the encoding of the statement's command (R102). -/
theorem assemble_eq_some_iff (a : Asm) (w : Word48) : a.assemble = some w ↔ ∃ i, a.instr = some i ∧ encode i = w :=
  Option.map_eq_some_iff

/-- Settles O56: only an operand out of range leaves a statement without a command, and a command's word decodes to it. -/
theorem assemblerOperandRanges : Obligations.AssemblerOperandRanges := by
  unfold Obligations.AssemblerOperandRanges
  refine ⟨?interp, ?validate, ?decode, ?pattern, ?word⟩
  case interp =>
    intro n
    simp [Asm.assemble, Asm.instr, rawInRange]
  case validate =>
    intro bytes
    rw [← frameOperand_eq_none_iff]
    simp only [Asm.assemble, Asm.instr, Option.map_eq_none_iff]
  case decode =>
    intro bytes
    rw [← frameOperand_eq_none_iff]
    simp only [Asm.assemble, Asm.instr, Option.map_eq_none_iff]
  case pattern =>
    intro n
    simp [Asm.assemble, Asm.instr, patternInRange]
  case word =>
    intro a w assembled
    obtain ⟨i, statement, rfl⟩ := (assemble_eq_some_iff a w).1 assembled
    exact ⟨i, statement, decodeOfEncode i⟩

end Sys2Proof.Machine
end

