-- ==== Sys2Proof/Proofs/Transitions.lean ====
section
/-! What one step can do, as a relation with one named constructor per kind of step, and the statements about who writes what
(10_state.md R33 to R42), the ports (40_transport.md R132), reset (70_reset_and_hazards.md R320) and the invariant. -/

namespace Sys2Proof.Machine

/-- `s` once the input before `rest` is taken off its port. -/
abbrev State.took (s : State) (rest : List Input) : State := { s with inputs := rest }

/-- An answer is of the kind its command waits for: acknowledge bits answer probes, bytes answer reads (R41). -/
abbrev Answer.Suits (a : Answer) (c : BusCmd) : Prop := (∃ ack, a = .probe ack) ↔ c = .probe

/-- The steps of the machine, by the input taken and what it does. -/
inductive Transition (s : State) : State → Prop where
  /-- There is no input to take. -/
  | stay (nothing : takeInput s.inflight s.inputs = none) : Transition s s
  /-- A command word is accepted and completes at once (R252). -/
  | complete {w : Word48} {rest : List Input} {p : Profile} {lv : Bool} {r : Result} (idle : s.inflight = .idle)
      (word : s.inputs = .command w :: rest) (clean : r.clean) (range : p = s.range ∨ decode w = .ok (.setrange p))
      (lastValid : lv = s.lastValid ∨ s.ready = true ∧ ∃ f, decode w = .ok (.validate f) ∧ lv = (checksum f).valid) :
      Transition s ((((s.took rest).setRange p).setLastValid lv).emit r)
  /-- A command word is accepted and issues its request (R132). -/
  | request {w : Word48} {rest : List Input} {c : BusCmd} (idle : s.inflight = .idle)
      (word : s.inputs = .command w :: rest) (mode : c ≠ .probe → s.ready = true) : Transition s ((s.took rest).issue c)
  /-- An answer is discarded: it is not the response the core waits for (R320, R336). -/
  | discard {n : Nat} {a : Answer} {rest : List Input} (taken : takeInput s.inflight s.inputs = some (.answer n a, rest))
      (other : ∀ c req, s.inflight = .wait c req → ¬ (s.awaits n = true ∧ a.Suits c)) : Transition s (s.took rest)
  /-- The response a PROBE waits for (R133). -/
  | probed {n : Nat} {ack : Bool} {rest : List Input} {req : Request} {r : Result} (waits : s.inflight = .wait .probe req)
      (awaited : s.awaits n = true) (taken : takeInput s.inflight s.inputs = some (.answer n (.probe ack), rest))
      (clean : r.clean) : Transition s ((((s.took rest).setReady ack).setInflight .idle).emit r)
  /-- The response a READ command waits for (R240). -/
  | read {n : Nat} {a : ReadAnswer} {rest : List Input} {c : BusCmd} {req : Request} {r : Result}
      (waits : s.inflight = .wait c req) (isRead : c ≠ .probe) (awaited : s.awaits n = true)
      (taken : takeInput s.inflight s.inputs = some (.answer n (.read a), rest)) (clean : r.clean) :
      Transition s ((((s.took rest).setLastValid (answerValid a)).setInflight .idle).emit r)
  /-- The reset input (R320). -/
  | reset {rest : List Input} (taken : takeInput s.inflight s.inputs = some (.reset, rest)) :
      Transition s (s.took rest).applyReset

/-- Every step goes on, by one of these transitions. -/
theorem step_transition (s : State) : ∃ t, step s = .next t ∧ Transition s t := by
  rcases step_cases s with ⟨nothing, h⟩ | ⟨w, rest, e, idle, word, -, h⟩ | ⟨w, rest, i, idle, word, decoded, h⟩ |
    ⟨n, a, rest, taken, other, h⟩ | ⟨n, a, rest, c, req, waits, taken, awaited, h⟩ | ⟨rest, taken, h⟩
  · exact ⟨_, h, .stay nothing⟩
  · exact ⟨_, h, .complete idle word (fun _ => rfl) (.inl rfl) (.inl rfl)⟩
  · rcases exec_cases i (s.took rest) with ⟨p, lv, r, he, clean, range, lastValid⟩ | ⟨c, he, mode⟩
    · refine ⟨_, h.trans he, .complete idle word clean (range.imp_right fun hi => by rw [decoded, hi]) (lastValid.imp_right ?_)⟩
      rintro ⟨ready, f, rfl, valid⟩
      exact ⟨ready, f, decoded, valid⟩
    · exact ⟨_, h.trans he, .request idle word mode⟩
  · exact ⟨_, h, .discard taken fun _ _ _ ⟨awaited, _⟩ => by simp [other] at awaited⟩
  · rcases finish_cases c a (s.took rest) with ⟨hf, kind⟩ | ⟨rd, lv, r, hf, clean, ⟨rfl, rfl, rfl⟩ | ⟨isRead, rfl, ra, rfl, rfl⟩⟩
    · refine ⟨_, h.trans hf, .discard taken fun c' req' waits' ⟨_, suits⟩ => kind ?_⟩
      rw [waits] at waits'
      cases waits'
      exact suits
    · exact ⟨_, h.trans hf, .probed waits awaited taken clean⟩
    · exact ⟨_, h.trans hf, .read waits isRead awaited taken clean⟩
  · exact ⟨_, h, .reset taken⟩

/-- A step to `t` is one of the transitions to `t`. -/
theorem transition_of_step {s t : State} (h : step s = .next t) : Transition s t := by
  obtain ⟨t', h', transition⟩ := step_transition s
  rw [h] at h'
  cases h'
  exact transition

/-- An idle core with an input takes the first one. -/
theorem takeInput_idle {s : State} (idle : s.inflight = .idle) {e : Input} {rest : List Input} (h : s.inputs = e :: rest) :
    takeInput s.inflight s.inputs = some (e, rest) := by
  rw [idle, h, takeInput]

/-- A waiting core takes no command word (R40). -/
theorem takeInput_wait {s : State} (waits : s.inflight ≠ .idle) : takeInput s.inflight s.inputs = firstNonCommand s.inputs := by
  cases h : s.inflight with
  | idle => exact absurd h waits
  | wait c req => rfl

/-- A run of no steps stays. -/
theorem run_zero (s : State) : Host.Core.run Sys2Proof.core 0 s = .next s := rfl

/-- A run of one step more starts with that step. -/
theorem run_succ {s t : State} (h : step s = .next t) (k : Nat) :
    Host.Core.run Sys2Proof.core (k + 1) s = Host.Core.run Sys2Proof.core k t := by
  have first : Host.Core.step Sys2Proof.core s = .next t := h
  simp only [Host.Core.run, first]

/-- Settles O41: every step is a transition, and a run is one step after another. -/
theorem everyStepGoesOn : Obligations.EveryStepGoesOn := by
  unfold Obligations.EveryStepGoesOn
  have goesOn : ∀ s : State, SafeStep s := fun s => by
    obtain ⟨t, h, -⟩ := step_transition s
    exact ⟨t, h⟩
  refine ⟨goesOn, fun k => ?_⟩
  induction k with
  | zero => exact fun s => ⟨s, rfl⟩
  | succ k run =>
    intro s
    obtain ⟨t, h⟩ := goesOn s
    obtain ⟨u, hu⟩ := run t
    refine ⟨u, ?_⟩
    rw [run_succ h k]
    exact hu

/-- An idle core is consistent with any requests (R37). -/
theorem idle_consistent (ready : Bool) (requests : List Request) : InFlight.idle.consistent ready requests :=
  fun _ _ h => nomatch h

/-- A request is one of the two of R41. -/
theorem request_known (c : BusCmd) : c.request = .probe deviceAddr ∨ c.request = .read deviceAddr frameLen := by
  cases c <;> simp [BusCmd.request]

/-- One more clean result keeps the results clean (R45). -/
theorem results_clean_append {rs : List Result} {r : Result} (h : ∀ x ∈ rs, x.clean) (hr : r.clean) :
    ∀ x ∈ rs ++ [r], x.clean := by
  simp only [List.forall_mem_append, List.forall_mem_singleton]
  exact ⟨h, hr⟩

/-- Settles O52: by the kind of the step; only a request makes a core wait, and READY is not written while it does. -/
theorem invKeptByStep : Obligations.InvKeptByStep := by
  unfold Obligations.InvKeptByStep
  intro s t inv h
  obtain ⟨consistent, known, clean⟩ := id inv
  cases transition_of_step h with
  | stay => exact inv
  | complete idle word hr range lastValid => exact ⟨consistent, known, results_clean_append clean hr⟩
  | @request w rest c idle word mode =>
    refine ⟨?_, ?_, clean⟩
    · intro c' req hw
      cases hw
      exact ⟨rfl, by simp, mode⟩
    · intro r hr
      rcases List.mem_append.1 hr with hr | hr
      · exact known r hr
      · rw [List.mem_singleton.1 hr]
        exact request_known c
  | discard => exact ⟨consistent, known, clean⟩
  | probed _ _ _ hr => exact ⟨idle_consistent _ _, known, results_clean_append clean hr⟩
  | read _ _ _ _ hr => exact ⟨idle_consistent _ _, known, results_clean_append clean hr⟩
  | reset => exact ⟨idle_consistent _ _, known, clean⟩

/-- Settles O53: the core is idle, and has requested and delivered nothing. -/
theorem invAtReset : Obligations.InvAtReset := by
  unfold Obligations.InvAtReset
  exact ⟨idle_consistent _ _, List.forall_mem_nil _, List.forall_mem_nil _⟩

/-- Settles O43: of the kinds of step, only the response to a PROBE and reset write READY. -/
theorem readyWriters : Obligations.ReadyWriters := by
  unfold Obligations.ReadyWriters
  intro s t h changed
  cases transition_of_step h with
  | stay | complete | request | discard | read => exact absurd rfl changed
  | probed waits awaited taken => exact .inl ⟨_, _, _, _, waits, awaited, taken, rfl, rfl⟩
  | reset taken => exact .inr ⟨_, taken, rfl, rfl⟩

/-- Settles O44: of the kinds of step, only a command's completion and reset write RANGE. -/
theorem rangeWriters : Obligations.RangeWriters := by
  unfold Obligations.RangeWriters
  intro s t h changed
  cases transition_of_step h with
  | stay | request | discard | probed | read => exact absurd rfl changed
  | complete idle word _ range => exact .inl ⟨idle, _, _, word, range.resolve_left changed⟩
  | reset taken => exact .inr ⟨_, taken, rfl⟩

/-- Settles O45: of the kinds of step, only a command's completion, the response to a READ command and reset write LAST_VALID. -/
theorem lastValidWriters : Obligations.LastValidWriters := by
  unfold Obligations.LastValidWriters
  intro s t h changed
  cases transition_of_step h with
  | stay | request | discard | probed => exact absurd rfl changed
  | complete idle word _ _ lastValid =>
    obtain ⟨ready, f, decoded, valid⟩ := lastValid.resolve_left changed
    exact .inl ⟨idle, ready, _, _, f, word, decoded, valid⟩
  | read waits isRead awaited taken => exact .inr (.inl ⟨_, _, _, _, _, waits, isRead, awaited, taken, rfl⟩)
  | reset taken => exact .inr (.inr ⟨_, taken, rfl⟩)

/-- Settles O46: no kind of step writes the parameters. -/
theorem romNeverWritten : Obligations.RomNeverWritten := by
  unfold Obligations.RomNeverWritten
  intro s t h
  cases transition_of_step h <;> rfl

/-- A command accepted while idle completes with one result, or issues its one request and waits (R42, R132). -/
theorem Transition.ports_of_command {s t : State} (step : Transition s t) (idle : s.inflight = .idle) {w : Word48}
    {rest : List Input} (word : s.inputs = .command w :: rest) :
    (t.inflight = .idle ∧ t.requests = s.requests ∧ ∃ r, t.results = s.results ++ [r]) ∨
    (∃ c, t.inflight = .wait c c.request ∧ t.requests = s.requests ++ [c.request] ∧ t.results = s.results) := by
  have taken := takeInput_idle idle word
  cases step with
  | complete => exact .inl ⟨idle, rfl, _, rfl⟩
  | request => exact .inr ⟨_, rfl, rfl, rfl⟩
  | stay taken' | discard taken' | probed _ _ taken' | read _ _ _ taken' | reset taken' => simp [taken] at taken'

/-- An idle core to which no command is presented puts nothing on its ports. -/
theorem Transition.ports_of_idle {s t : State} (step : Transition s t) (idle : s.inflight = .idle)
    (noCommand : ¬ ∃ w rest, s.inputs = .command w :: rest) :
    t.inflight = .idle ∧ t.requests = s.requests ∧ t.results = s.results := by
  cases step with
  | stay | discard => exact ⟨idle, rfl, rfl⟩
  | complete _ word | request _ word => exact absurd ⟨_, _, word⟩ noCommand
  | probed waits | read waits => simp [idle] at waits
  | reset => exact ⟨rfl, rfl, rfl⟩

/-- A waiting core issues no request (R41). -/
theorem Transition.requests_of_wait {s t : State} (step : Transition s t) (waits : s.inflight ≠ .idle) :
    t.requests = s.requests := by
  cases step with
  | stay | discard | probed | read | reset => rfl
  | complete idle | request idle => exact absurd idle waits

/-- The awaited answer finishes a waiting command with one result, and any other leaves it waiting (R132, R336). -/
theorem Transition.ports_of_answer {s t : State} (step : Transition s t) {c : BusCmd} {req : Request}
    (waits : s.inflight = .wait c req) {n : Nat} {a : Answer} {rest : List Input}
    (taken : takeInput s.inflight s.inputs = some (.answer n a, rest)) :
    (s.awaits n = true → a.Suits c → t.inflight = .idle ∧ ∃ r, t.results = s.results ++ [r]) ∧
    (¬ (s.awaits n = true ∧ a.Suits c) → t.inflight = s.inflight ∧ t.results = s.results) := by
  cases step with
  | complete idle | request idle => simp [idle] at waits
  | stay taken' | reset taken' => simp [taken] at taken'
  | discard taken' other =>
    rw [taken] at taken'
    cases taken'
    exact ⟨fun awaited suits => absurd ⟨awaited, suits⟩ (other c req waits), fun _ => ⟨rfl, rfl⟩⟩
  | probed waits' awaited taken' =>
    rw [taken] at taken'
    cases taken'
    rw [waits] at waits'
    cases waits'
    exact ⟨fun _ _ => ⟨rfl, _, rfl⟩, fun other => absurd ⟨awaited, iff_of_true ⟨_, rfl⟩ rfl⟩ other⟩
  | read waits' isRead awaited taken' =>
    rw [taken] at taken'
    cases taken'
    rw [waits] at waits'
    cases waits'
    exact ⟨fun _ _ => ⟨rfl, _, rfl⟩, fun other => absurd ⟨awaited, iff_of_false (fun ⟨_, h⟩ => nomatch h) isRead⟩ other⟩

/-- A reset taken makes the core idle at the reset values and gives no result (R320). -/
theorem Transition.ports_of_reset {s t : State} (step : Transition s t) {rest : List Input}
    (taken : takeInput s.inflight s.inputs = some (.reset, rest)) :
    t.inflight = .idle ∧ t.results = s.results ∧ t.ready = false ∧ t.range = .sevenMps ∧ t.lastValid = false := by
  cases step with
  | reset => exact ⟨rfl, rfl, rfl, rfl, rfl⟩
  | complete idle word | request idle word => simp [takeInput_idle idle word] at taken
  | stay taken' | discard taken' | probed _ _ taken' | read _ _ _ taken' => simp [taken] at taken'

/-- With nothing to take a step changes nothing. -/
theorem step_of_nothing {s : State} (nothing : takeInput s.inflight s.inputs = none) : step s = .next s := by
  rw [step, stepOnce, nothing]

/-- Settles O42: by the input taken: a command while idle, none or another while idle, and each kind while waiting. -/
theorem oneResultPerCommand : Obligations.OneResultPerCommand := by
  unfold Obligations.OneResultPerCommand
  intro s t h
  have transition := transition_of_step h
  refine ⟨?command, transition.ports_of_idle, ?waiting⟩
  case command =>
    rintro idle ⟨w, rest, word⟩
    exact transition.ports_of_command idle word
  case waiting =>
    intro c req waits
    have busy : s.inflight ≠ .idle := by simp [waits]
    refine ⟨transition.requests_of_wait busy, fun n a rest taken => transition.ports_of_answer waits taken,
      fun rest taken => transition.ports_of_reset taken, fun w rest taken => ?noCommand, fun nothing => ?stays⟩
    case noCommand =>
      obtain ⟨held, post, -, -, notCommand⟩ := firstNonCommand_some ((takeInput_wait busy).symm.trans taken)
      exact notCommand w rfl
    case stays =>
      rw [step_of_nothing nothing] at h
      cases h
      rfl

/-- A step does what the input it takes does. -/
theorem step_of_taken {s : State} {e : Input} {rest : List Input} (taken : takeInput s.inflight s.inputs = some (e, rest)) :
    step s = receive e (s.took rest) := by
  rw [step, stepOnce, taken]

/-- Settles O47: each step of the run finds nothing to take. -/
theorem unansweredRequestHangs : Obligations.UnansweredRequestHangs := by
  unfold Obligations.UnansweredRequestHangs
  intro s c req k waits commands
  have nothing : takeInput s.inflight s.inputs = none := by
    rw [waits]
    exact firstNonCommand_commands commands
  induction k with
  | zero => rfl
  | succ k run =>
    rw [run_succ (step_of_nothing nothing) k]
    exact run

/-- What a waiting core takes is no command, so a selection of the commands alone does not see that it is gone (R40). -/
theorem filterMap_firstNonCommand {α : Type} (select : Input → Option α)
    (commandsOnly : ∀ e, (∀ w, e ≠ .command w) → select e = none) {ins rest : List Input} {e : Input} (h : firstNonCommand ins = some (e, rest)) :
    rest.filterMap select = ins.filterMap select := by
  obtain ⟨held, post, rfl, rfl, notCommand⟩ := firstNonCommand_some h
  simp [commandsOnly e notCommand]

/-- What is still to come after a step: everything, if there was nothing to take, or what the input taken left. -/
theorem Transition.inputs {s t : State} (step : Transition s t) :
    t.inputs = s.inputs ∨ ∃ e, takeInput s.inflight s.inputs = some (e, t.inputs) := by
  cases step with
  | stay => exact .inl rfl
  | complete idle word | request idle word => exact .inr ⟨_, takeInput_idle idle word⟩
  | discard taken | probed _ _ taken | read _ _ _ taken | reset taken => exact .inr ⟨_, taken⟩

/-- Settles O48: what a waiting core takes is the first input that is no command, from between the commands held. -/
theorem noCommandAcceptedWhileWaiting : Obligations.NoCommandAcceptedWhileWaiting := by
  unfold Obligations.NoCommandAcceptedWhileWaiting
  intro s t waits h
  rcases (transition_of_step h).inputs with same | ⟨e, taken⟩
  · rw [same]
  · refine filterMap_firstNonCommand _ (fun e' notCommand => ?_) ((takeInput_wait waits).symm.trans taken)
    cases e' with
    | command w => exact absurd rfl (notCommand w)
    | answer | reset => rfl

/-- Settles O50: behind held commands or none, the reset is the input the core takes. -/
theorem resetEvent : Obligations.ResetEvent := by
  unfold Obligations.ResetEvent
  intro s held rest waitsOrNone
  have taken : takeInput s.inflight (held.map .command ++ .reset :: rest) = some (.reset, held.map .command ++ rest) := by
    cases hf : s.inflight with
    | idle =>
      obtain rfl : held = [] := waitsOrNone.resolve_left (absurd hf)
      rfl
    | wait c req => exact firstNonCommand_held held .reset rest (by simp)
  exact step_of_taken (s := { s with inputs := held.map .command ++ .reset :: rest }) taken

/-- The next input is the one taken, whether the core is idle or waits, unless it is a command (R40). -/
theorem takeInput_answer (f : InFlight) (n : Nat) (a : Answer) (rest : List Input) :
    takeInput f (.answer n a :: rest) = some (.answer n a, rest) := by
  cases f <;> rfl

/-- An answer to no outstanding request is discarded (R320). -/
theorem deliverAnswer_of_not_awaits {s : State} {n : Nat} (other : s.awaits n = false) (a : Answer) :
    deliverAnswer n a s = .next s := by
  unfold deliverAnswer
  cases s.inflight with
  | idle => rfl
  | wait c req => simp [other]

/-- Settles O49: the answer is taken, and the core does not await it. -/
theorem lateAnswerDiscarded : Obligations.LateAnswerDiscarded := by
  unfold Obligations.LateAnswerDiscarded
  intro s n a rest late
  have other : (s.took rest).awaits n = false := by
    rcases late with idle | number <;> simp [State.awaits, *]
  rw [step_of_taken (takeInput_answer ..), receive]
  exact deliverAnswer_of_not_awaits other a

/-- Settles O40: the word is the input an idle core takes. -/
theorem stepRunsDecodedCommand : Obligations.StepRunsDecodedCommand := by
  unfold Obligations.StepRunsDecodedCommand
  intro s w i rest idle word decoded
  rw [step_of_taken (takeInput_idle idle word), receive, acceptCommand, decoded]

/-- Settles O51: each element is written out at its reset value, and the STATE byte is put together from them (R38). -/
theorem resetState : Obligations.ResetState := by
  unfold Obligations.ResetState
  exact ⟨rfl, rfl, rfl, rfl, rfl⟩

end Sys2Proof.Machine
end

