-- ==== Sys2Proof/Proofs/ChecksumLaws.lean ====
section
/-! The algebra of the checksum and of the extractor (41_validator.md R150 to R154; 42_extract.md R174). -/

namespace Sys2Proof.Machine

/-- A frame is valid when its five bytes sum to zero (R150). -/
theorem checksum_valid_iff_sum (f : Frame) : (checksum f).valid = true ↔ f.f1 + f.f2 + f.f3 + f.f4 + f.f0 = 0 :=
  beq_iff_eq

/-- A frame is valid when its checksum byte is the negated payload sum (R152). -/
theorem checksum_valid_iff_calculated (f : Frame) : (checksum f).valid = true ↔ f.f0 = (checksum f).calculated := by
  rw [checksum_valid_iff_sum, checksum, add_comm, BitVec.zero_sub]
  exact add_eq_zero_iff_eq_neg

/-- Settles O24: the checksum byte and the negated payload sum are equal exactly when the two sums cancel. -/
theorem checksumForms : Obligations.ChecksumForms := by
  unfold Obligations.ChecksumForms
  intro f
  refine ⟨checksum_valid_iff_calculated f, ?_⟩
  rw [checksum_valid_eq, decide_eq_true_iff, checksum_overall_toNat, checksum_sum_toNat]
  omega

/-- The payload sum does not depend on the order of the payload (R154). -/
theorem payload_sum_of_perm {f g : Frame} (h : [f.f1, f.f2, f.f3, f.f4].Perm [g.f1, g.f2, g.f3, g.f4]) :
    f.f1 + f.f2 + f.f3 + f.f4 = g.f1 + g.f2 + g.f3 + g.f4 := by
  simpa [add_assoc] using h.sum_eq

/-- Settles O25: validity says that a sum is zero, and in a sum one changed term shows while order and cancelling changes do not. -/
theorem checksumLaws : Obligations.ChecksumLaws := by
  unfold Obligations.ChecksumLaws
  refine ⟨fun f b => checksum_valid_iff_calculated { f with f0 := b }, ?order, ?single, ?cancelling⟩
  case order =>
    intro f g checksumByte payload
    rw [Bool.eq_iff_iff, checksum_valid_iff_sum, checksum_valid_iff_sum, payload_sum_of_perm payload, checksumByte]
  case single =>
    intro f b valid
    rw [checksum_valid_iff_sum] at valid
    simp only [← Bool.not_eq_true, checksum_valid_iff_sum]
    refine ⟨?_, ?_, ?_, ?_, ?_⟩ <;>
    · intro changed zero
      exact changed (by simpa using zero.trans valid.symm)
  case cancelling =>
    intro f g valid same
    rw [checksum_valid_iff_sum] at valid ⊢
    rw [← valid]
    calc _ = g.f0 + g.f1 + g.f2 + g.f3 + g.f4 := by ring
      _ = f.f0 + f.f1 + f.f2 + f.f3 + f.f4 := same.symm
      _ = _ := by ring

/-- The upper nibble of frame byte 1 does not reach the sample (R174). -/
theorem extract_nibbles (high low : BitVec 4) (f2 : Byte) : extract (high ++ low) f2 = low ++ f2 := by
  rw [extract_eq_append, BitVec.setWidth_append_eq_right]

/-- Settles O27: the sample is the low nibble before the low byte, and a concatenation determines its parts. -/
theorem extractBijection : Obligations.ExtractBijection := by
  unfold Obligations.ExtractBijection
  intro raw
  have parts : raw.extractLsb' 8 4 ++ raw.extractLsb' 0 8 = raw :=
    (BitVec.extractLsb'_append_extractLsb'_eq_extractLsb' (start₁ := 0) (len₁ := 8) rfl).trans BitVec.extractLsb'_eq_self
  refine ⟨raw.extractLsb' 8 4, raw.extractLsb' 0 8, fun high => ?_, fun high low' f2' h => ?_⟩
  · rw [extract_nibbles, parts]
  · rw [extract_nibbles, ← parts] at h
    exact append_inj.1 h

end Sys2Proof.Machine
end

