-- ==== Sys2Proof/Proofs/Commands.lean ====
section
/-! The commands that complete at once and the requests of the others (44_pipeline.md R250 to R252; 40_transport.md R130 to R135;
43_conversion.md R210), the status codes and the byte order of a value. -/

namespace Sys2Proof.Machine

/-- Settles O28: NOP's rule is to give its result. -/
theorem nopResult : Obligations.NopResult := by
  unfold Obligations.NopResult
  exact fun s => rfl

/-- SETRANGE writes RANGE and gives its result, in any mode (R210). -/
theorem exec_setrange (p : Profile) (s : State) : exec (.setrange p) s = .next ((s.setRange p).emit { status := .ok }) := rfl

/-- Settles O21: the second SETRANGE finds the profile it writes. -/
theorem setrangeResult : Obligations.SetrangeResult := by
  unfold Obligations.SetrangeResult
  exact fun s p => ⟨exec_setrange p s, exec_setrange p ((s.setRange p).emit { status := .ok })⟩

/-- The STATE byte as a number: each element at the weight of its bit (R38). -/
theorem stateByte_eq (s : State) : s.stateByte = BitVec.ofNat 8
    ((if s.ready then 1 else 0) + (if s.range = .fifteenMps then 2 else 0) + (if s.lastValid then 4 else 0)) := by
  unfold State.stateByte
  cases s.ready <;> cases s.range <;> cases s.lastValid <;> rfl

/-- Settles O29: GETSTATE gives the STATE byte and writes nothing (R250). -/
theorem getstateResult : Obligations.GetstateResult := by
  unfold Obligations.GetstateResult
  refine ⟨fun s => ?_, rfl⟩
  rw [← stateByte_eq]
  rfl

/-- Settles O31: behind the mode gate the rule of each READ command is to issue its request. -/
theorem requestsIssued : Obligations.RequestsIssued := by
  unfold Obligations.RequestsIssued
  exact fun s ready => ⟨gated_of_ready ready _, gated_of_ready ready _, gated_of_ready ready _⟩

/-- Settles O39: the codes are written out, and no two of the six are equal. -/
theorem statusCodes : Obligations.StatusCodes := by
  unfold Obligations.StatusCodes
  refine ⟨rfl, rfl, rfl, rfl, rfl, rfl, fun a b h => ?_⟩
  revert h
  cases a <;> cases b <;> decide

/-- Settles O54: the four bytes are the digits of the pattern to base 256, and the first holds its bit 31. -/
theorem valueWrittenBigEndian : Obligations.ValueWrittenBigEndian := by
  unfold Obligations.ValueWrittenBigEndian
  intro v
  refine ⟨_, _, _, _, rfl, ?number, ?sign⟩
  case number =>
    have v_lt := v.isLt
    simp only [BitVec.extractLsb'_toNat, Nat.shiftRight_eq_div_pow]
    omega
  case sign =>
    simp [signBit]

/-- The encoding of a command, presented to an idle core, is executed by the very next step (R252). -/
theorem step_encoded {s : State} (idle : s.inflight = .idle) (i : Instr) (rest : List Input) :
    step { s with inputs := .command (encode i) :: rest } = exec i (s.took rest) :=
  stepRunsDecodedCommand { s with inputs := .command (encode i) :: rest } (encode i) i rest idle rfl (decodeOfEncode i)

/-- Settles O22: the state SETRANGE leaves is the one INTERP is executed in, and its RANGE is the profile written. -/
theorem setrangeActsOnNextCommand : Obligations.SetrangeActsOnNextCommand := by
  unfold Obligations.SetrangeActsOnNextCommand
  intro s p raw rest idle ready ceiling
  have first : step { s with inputs := .command (encode (.setrange p)) :: .command (encode (.interp raw)) :: rest } =
      .next (((s.took (.command (encode (.interp raw)) :: rest)).setRange p).emit { status := .ok }) :=
    step_encoded idle (.setrange p) _
  have second : step (((s.took (.command (encode (.interp raw)) :: rest)).setRange p).emit { status := .ok }) =
      .next ((((s.took rest).setRange p).emit { status := .ok }).emit { status := .ok, value := some p.ceiling }) :=
    (step_encoded (s := (s.setRange p).emit { status := .ok }) idle (.interp raw) rest).trans
      (exec_interp_of_ready (s := ((s.took rest).setRange p).emit { status := .ok }) ready (interp_ceiling s.cfg p ceiling))
  rw [run_succ first 1, run_succ second 0, run_zero]
  simp only [State.emit, State.setRange, List.append_assoc, List.cons_append, List.nil_append]
  rfl

end Sys2Proof.Machine
end

