-- ==== Sys2Proof/Proofs/Answers.lean ====
section
/-! PROBE and the READ commands from request to result (40_transport.md R130 to R136; 44_pipeline.md R240 to R245), and the order of
the checks on an accepted word (60_exceptions.md R282). -/

namespace Sys2Proof.Machine

/-- The answer to the request just issued finishes the command that waits for it (R132). -/
theorem step_answer_of_issue (s : State) (c : BusCmd) (a : Answer) (rest : List Input) :
    step { s.issue c with inputs := .answer s.requests.length a :: rest } = finish c a ((s.took rest).issue c) := by
  rw [step_of_taken (takeInput_answer ..), receive]
  simp [deliverAnswer, State.awaits, State.issue]

/-- Settles O30: PROBE's rule is to issue its request, and the acknowledge bit of the answer is what READY becomes. -/
theorem probeCompletes : Obligations.ProbeCompletes := by
  unfold Obligations.ProbeCompletes
  refine fun s => ⟨s.issue .probe, rfl, rfl, fun ack rest => ?_⟩
  rw [step_answer_of_issue]
  cases ack <;> rfl

/-- Completion of a READ command, from what it does when accepted and what its answer does. -/
theorem completesOnAnswer_of {i : Instr} {c : BusCmd} {a : ReadAnswer} {s : State} {valid : Bool} {r : Result}
    (accepted : exec i s = .next (s.issue c)) (isRead : c ≠ .probe)
    (finished : ∀ t : State, t.cfg = s.cfg → t.range = s.range →
      finish c (.read a) t = .next (((t.setLastValid valid).setInflight .idle).emit r)) :
    CompletesOnAnswer i c a s valid r := by
  have request : c.request = .read 0x28#7 5 := by
    cases c with
    | probe => exact absurd rfl isRead
    | readRaw | readMps | readMph => rfl
  refine ⟨s.issue c, accepted, by rw [State.issue, request], fun rest => ?_⟩
  rw [step_answer_of_issue, finished ((s.took rest).issue c) rfl rfl, ← request]
  rfl

/-- The pipeline on a complete frame writes its validity, goes idle, and hands on its sample and record (R240). -/
theorem readPipeline_of_frame {a : ReadAnswer} {f : Frame} (h : readFrame a = .frame f) (s : State)
    (k : Raw → Result → State → Out) :
    readPipeline a s k = k (extract f.f1 f.f2) { (checksum f).result with raw := some (extract f.f1 f.f2) }
      ((s.setLastValid (checksum f).valid).setInflight .idle) := by
  rw [readPipeline, h]

/-- A READ command that is not acknowledged: the status alone, LAST_VALID cleared (R284). -/
theorem finish_of_noAck {c : BusCmd} (isRead : c ≠ .probe) (s : State) :
    finish c (.read .noAck) s = .next (((s.setLastValid false).setInflight .idle).emit { status := .noack }) := by
  cases c with
  | probe => exact absurd rfl isRead
  | readRaw | readMps | readMph => rfl

/-- A READ command answered by too few bytes: the status alone, LAST_VALID cleared (R285). -/
theorem finish_of_short {c : BusCmd} (isRead : c ≠ .probe) {a : ReadAnswer} (short : readFrame a = .short) (s : State) :
    finish c (.read a) s = .next (((s.setLastValid false).setInflight .idle).emit { status := .short }) := by
  have ended : ∀ k, readPipeline a s k = .next (((s.setLastValid false).setInflight .idle).emit { status := .short }) := by
    intro k
    simp only [readPipeline, short, State.failRead_eq]
  cases c with
  | probe => exact absurd rfl isRead
  | readRaw => rw [finish, finishReadraw, ended]
  | readMps => rw [finish, finishReadmps, ended]
  | readMph => rw [finish, finishReadmph, ended]

/-- Interpolation goes on with the value of the engine. -/
theorem withInterp_of_value {raw : Raw} {s : State} {v : F32} (value : interp s.cfg s.range raw = some v) (k : F32 → Out) :
    withInterp raw s k = k v := by
  rw [withInterp, value]

section complete
variable {s : State} {f : Frame} {a : ReadAnswer}

/-- The record READRAW gives for a frame (R240). -/
abbrev frameResult (f : Frame) : Result := { (checksum f).result with raw := some (extract f.f1 f.f2) }

/-- READRAW on a complete frame (R241). -/
theorem readraw_completes (ready : s.ready = true) (frame : readFrame a = .frame f) :
    CompletesOnAnswer .readraw .readRaw a s (checksum f).valid (frameResult f) :=
  completesOnAnswer_of (gated_of_ready ready _) (by simp) fun t _ _ => by
    rw [finish, finishReadraw, readPipeline_of_frame frame]

/-- READMPS on a complete frame (R242). -/
theorem readmps_completes (ready : s.ready = true) (frame : readFrame a = .frame f) {v : F32}
    (value : interp s.cfg s.range (extract f.f1 f.f2) = some v) :
    CompletesOnAnswer .readmps .readMps a s (checksum f).valid { frameResult f with value := some v } := by
  refine completesOnAnswer_of (gated_of_ready ready _) (by simp) fun t cfg range => ?_
  rw [← cfg, ← range] at value
  rw [finish, finishReadmps, readPipeline_of_frame frame]
  exact withInterp_of_value value _

/-- READMPH on a complete frame (R243). -/
theorem readmph_completes (ready : s.ready = true) (frame : readFrame a = .frame f) {v : F32}
    (value : interp s.cfg s.range (extract f.f1 f.f2) = some v) :
    CompletesOnAnswer .readmph .readMph a s (checksum f).valid { frameResult f with value := some (mph s.cfg v) } := by
  refine completesOnAnswer_of (gated_of_ready ready _) (by simp) fun t cfg range => ?_
  rw [← cfg, ← range] at value
  rw [← cfg, finish, finishReadmph, readPipeline_of_frame frame]
  exact withInterp_of_value value _

end complete

/-- Settles O32: five bytes or more are a frame, on which READRAW gives the pipeline's own record. -/
theorem readrawCompletes : Obligations.ReadrawCompletes := by
  unfold Obligations.ReadrawCompletes
  exact fun s f more ready => readraw_completes ready (readFrame_full f more)

/-- Settles O33: the engine always has a value (R192), and READMPS adds it to the record. -/
theorem readmpsCompletes : Obligations.ReadmpsCompletes := by
  unfold Obligations.ReadmpsCompletes
  intro s f more ready
  obtain ⟨v, value⟩ := interp_isSome s.cfg s.range (extract f.f1 f.f2)
  exact ⟨v, value, readmps_completes ready (readFrame_full f more) value⟩

/-- Settles O34: as for READMPS, with the value converted; the engine's value is plain, so it is finite. -/
theorem readmphCompletes : Obligations.ReadmphCompletes := by
  unfold Obligations.ReadmphCompletes
  intro s f more ready
  obtain ⟨v, value⟩ := interp_isSome s.cfg s.range (extract f.f1 f.f2)
  obtain ⟨finite, -⟩ := interp_plain _ _ _ value
  exact ⟨v, value, finite, readmph_completes ready (readFrame_full f more) value⟩

/-- Settles O35: without a frame the pipeline ends before the part in which the three commands differ. -/
theorem failedReads : Obligations.FailedReads := by
  unfold Obligations.FailedReads
  intro s ready
  have noAck {i c} (accepted : exec i s = .next (s.issue c)) (isRead : c ≠ .probe) :
      CompletesOnAnswer i c .noAck s false { status := .noack } :=
    completesOnAnswer_of accepted isRead fun t _ _ => finish_of_noAck isRead t
  have short {i c bytes} (accepted : exec i s = .next (s.issue c)) (isRead : c ≠ .probe) (few : bytes.length < 5) :
      CompletesOnAnswer i c (.data bytes) s false { status := .short } :=
    completesOnAnswer_of accepted isRead fun t _ _ => finish_of_short isRead (readFrame_short few) t
  obtain ⟨readraw, readmps, readmph⟩ : exec .readraw s = .next (s.issue .readRaw) ∧ exec .readmps s = .next (s.issue .readMps) ∧
    exec .readmph s = .next (s.issue .readMph) := requestsIssued s ready
  exact ⟨⟨noAck readraw nofun, noAck readmps nofun, noAck readmph nofun⟩,
    fun bytes few => ⟨short readraw nofun few, short readmps nofun few, short readmph nofun few⟩⟩

/-- Settles O36: the three records are those of one frame, and the engine's value depends on parameters and RANGE alone. -/
theorem readsCompose : Obligations.ReadsCompose := by
  unfold Obligations.ReadsCompose
  intro s t f ready
  obtain ⟨v, value⟩ := interp_isSome s.cfg s.range (extract f.f1 f.f2)
  obtain ⟨finite, -⟩ := interp_plain _ _ _ value
  have frame := readFrame_full f []
  have valid : decide ((frameResult f).valid = some true) = (checksum f).valid := by simp [Check.result]
  refine ⟨frameResult f, v, mph s.cfg v, rfl, rfl, rfl, rfl, ?_, ?_, ?_, fun tReady cfg range => ⟨?_, ?_⟩⟩
  · rw [valid]
    exact readraw_completes ready frame
  · rw [valid]
    exact readmps_completes ready frame value
  · rw [valid]
    exact readmph_completes ready frame value
  · rw [← cfg, ← range] at value
    exact exec_interp_of_ready tReady value
  · rw [← cfg]
    exact exec_tomph_of_finite tReady finite

/-- The commands that do not require Ready (R252). -/
abbrev AnyMode (i : Instr) : Prop := i = .nop ∨ i = .probe ∨ i = .getstate ∨ ∃ p, i = .setrange p

/-- The operand check of R286 refuses the command. -/
abbrev BadOperand (i : Instr) : Prop := ∃ v : F32, i = .tomph v ∧ v.extractLsb' 23 8 = 0xFF#8

/-- A step that gives an `OK` result and stays idle, or waits (R282). -/
abbrev State.Passes (s t : State) : Prop :=
  (t.inflight = .idle ∧ ∃ r, r.status = .ok ∧ t.results = s.results ++ [r]) ∨ (t.inflight ≠ .idle ∧ t.results = s.results)

/-- The mode gate refuses every command that requires Ready (R283). -/
theorem exec_of_not_ready {i : Instr} {s : State} (notAny : ¬ AnyMode i) (notReady : s.ready = false) :
    exec i s = .next (s.emit { status := .notready }) := by
  obtain ⟨validate, decode, interp, tomph, readraw, readmps, readmph⟩ := notReadyGate s notReady
  cases i with
  | nop | probe | getstate | setrange => simp [AnyMode] at notAny
  | validate f => exact validate f
  | decode f => exact decode f
  | interp raw => exact interp raw
  | tomph v => exact tomph v
  | readraw => exact readraw
  | readmps => exact readmps
  | readmph => exact readmph

/-- A command that passes the mode gate and the operand check passes (R282). -/
theorem exec_passes {i : Instr} {s : State} (idle : s.inflight = .idle) (mode : AnyMode i ∨ s.ready = true)
    (operand : ¬ BadOperand i) : ∃ t, exec i s = .next t ∧ s.Passes t := by
  cases i with
  | nop => exact ⟨_, rfl, .inl ⟨idle, _, rfl, rfl⟩⟩
  | probe => exact ⟨_, rfl, .inr ⟨nofun, rfl⟩⟩
  | getstate => exact ⟨_, rfl, .inl ⟨idle, _, rfl, rfl⟩⟩
  | setrange p => exact ⟨_, rfl, .inl ⟨idle, _, rfl, rfl⟩⟩
  | validate f => exact ⟨_, exec_validate_of_ready (mode.resolve_left nofun) f, .inl ⟨idle, _, rfl, rfl⟩⟩
  | decode f => exact ⟨_, exec_decode_of_ready (mode.resolve_left nofun) f, .inl ⟨idle, _, rfl, rfl⟩⟩
  | interp raw =>
    obtain ⟨v, value⟩ := interp_isSome s.cfg s.range raw
    exact ⟨_, exec_interp_of_ready (mode.resolve_left nofun) value, .inl ⟨idle, _, rfl, rfl⟩⟩
  | tomph v =>
    have finite : isFinite v = true := isFinite_iff_exponent.2 fun h => operand ⟨v, rfl, h⟩
    exact ⟨_, exec_tomph_of_finite (mode.resolve_left nofun) finite, .inl ⟨idle, _, rfl, rfl⟩⟩
  | readraw | readmps | readmph => exact ⟨_, gated_of_ready (mode.resolve_left nofun) _, .inr ⟨nofun, rfl⟩⟩

/-- The checks on a decoded command, in their order (R282). -/
theorem exec_checks (i : Instr) {s : State} (idle : s.inflight = .idle) : ∃ t, exec i s = .next t ∧
    (¬ AnyMode i → s.ready = false → t.results = s.results ++ [{ status := .notready }]) ∧
    (BadOperand i → s.ready = true → t.results = s.results ++ [{ status := .badop }]) ∧
    (AnyMode i ∨ s.ready = true → ¬ BadOperand i → s.Passes t) := by
  by_cases mode : AnyMode i ∨ s.ready = true
  · have reaches : ¬ AnyMode i → s.ready ≠ false := fun notAny => by simp [mode.resolve_left notAny]
    by_cases bad : BadOperand i
    · obtain ⟨v, rfl, exponent⟩ := id bad
      exact ⟨_, exec_tomph_of_not_finite (mode.resolve_left nofun) fun finite => isFinite_iff_exponent.1 finite exponent,
        fun notAny notReady => absurd notReady (reaches notAny), fun _ _ => rfl, fun _ good => absurd bad good⟩
    · obtain ⟨t, h, passes⟩ := exec_passes idle mode bad
      exact ⟨t, h, fun notAny notReady => absurd notReady (reaches notAny), fun bad' => absurd bad' bad, fun _ _ => passes⟩
  · obtain ⟨notAny, notReady⟩ := not_or.1 mode
    exact ⟨_, exec_of_not_ready notAny (Bool.eq_false_of_not_eq_true notReady), fun _ _ => rfl,
      fun _ ready => absurd ready notReady, fun mode' => absurd mode' mode⟩

/-- Settles O38: the decoder speaks first, then the mode gate, then the operand check. -/
theorem statusPriority : Obligations.StatusPriority := by
  unfold Obligations.StatusPriority
  intro s w rest idle word
  have accepted : step s = acceptCommand w (s.took rest) := step_of_taken (takeInput_idle idle word)
  cases decoded : decode w with
  | error e =>
    exact ⟨_, accepted.trans (acceptCommand_illegal decoded _), fun _ _ => rfl, nofun, by simp, nofun⟩
  | ok i =>
    obtain ⟨t, h, gate, operand, passes⟩ := exec_checks i (s := s.took rest) idle
    refine ⟨t, (stepRunsDecodedCommand s w i rest idle word decoded).trans h, nofun, ?_⟩
    simp only [Except.ok.injEq]
    refine ⟨?_, ?_, ?_⟩
    · rintro _ rfl
      exact gate
    · exact operand
    · rintro _ rfl
      exact passes

end Sys2Proof.Machine
end

