-- ==== Sys2Proof/Proofs/Rounding.lean ====
section
/-! What the rounding function and the binary32 operations compute, in rational numbers (00_scope.md R11): `rne32` is nearest with
ties to even, and every operation rounds its exact result once. -/

namespace Sys2Proof.Machine

/-- A sign put before a magnitude. -/
abbrev signed (neg : Bool) (a : Nat) : Int := if neg then -(a : Int) else a

/-- The units of a value are its sign before its magnitude. -/
theorem toUnits_eq_signed (v : F32) : toUnits v = signed (signBit v) (absUnits v) := rfl

/-- The magnitude behind a sign. -/
theorem natAbs_signed (neg : Bool) (a : Nat) : (signed neg a).natAbs = a := by
  cases neg <;> simp [signed]

/-- The sign before a magnitude, also when that is zero and the sign is kept on its own. -/
theorem sign_signed (neg : Bool) (a : Nat) : (if signed neg a = 0 then neg else decide (signed neg a < 0)) = neg := by
  cases neg with
  | false => simp [signed]
  | true =>
    simp only [signed, if_true, neg_eq_zero, decide_eq_true_eq, ite_eq_left_iff]
    omega

/-- Rounding a signed quotient rounds its magnitude and keeps the sign. -/
theorem roundUnits_signed (neg : Bool) (a den : Nat) :
    roundUnits neg (signed neg a) den = pack32 neg (roundMag binary32 a den) := by
  rw [roundUnits, sign_signed, natAbs_signed]

/-- The product of two signed magnitudes. -/
theorem signed_mul_signed (n m : Bool) (a b : Nat) : signed n a * signed m b = signed (n ^^ m) (a * b) := by
  cases n <;> cases m <;> simp [signed]

/-- Only the zero pattern is worth nothing. -/
theorem magUnits_eq_zero {f : FloatFormat} {p : Nat} : magUnits f p = 0 ↔ p = 0 := by
  rw [magUnits]
  split_ifs with h
  · rfl
  · have : 0 < 2 ^ f.fracBits := by positivity
    simp only [Nat.mul_eq_zero, Nat.add_eq_zero_iff, this.ne', false_and, false_or]
    constructor
    · intro h2
      exact absurd h2 (by positivity)
    · rintro rfl
      simp at h

/-- Zero rounds to zero. -/
theorem roundMag_zero (f : FloatFormat) (b : Nat) : roundMag f 0 b = 0 := by
  simp [roundMag, rneQuotient, Nat.log2_zero]

/-- A finite value rounds to itself: its whole number of units, over `den`, is the quotient rounded. -/
theorem roundUnits_exact {z : Bool} {num : Int} {den p : Nat} (hd : 0 < den) (hp : p < binary32.infinity)
    (exact : num.natAbs = magUnits binary32 p * den) :
    isFinite (roundUnits z num den) = true ∧ toUnits (roundUnits z num den) * den = num := by
  obtain ⟨sign, magnitude⟩ := roundUnits_parts z num den
  rw [exact, roundMag_magUnits binary32 hd hp] at magnitude
  rw [infinity32] at hp
  refine ⟨(isFinite_iff _).2 (magnitude ▸ hp), ?_⟩
  rw [toUnits, sign, absUnits, magnitude]
  have units : (num.natAbs : Int) = magUnits binary32 p * den := by exact_mod_cast exact
  rcases lt_trichotomy num 0 with negative | rfl | positive
  · rw [if_neg negative.ne, decide_eq_true negative, if_pos rfl, neg_mul, ← units]
    omega
  · rw [Int.natAbs_zero] at exact
    have zero : magUnits binary32 p = 0 := (Nat.mul_eq_zero.1 exact.symm).resolve_right hd.ne'
    simp [zero]
  · rw [if_neg positive.ne', decide_eq_false (by omega), if_neg Bool.false_ne_true, ← units]
    omega

/-- Every whole number up to 2^24 is a value of binary32. -/
theorem exists_magUnits_eq {n : Nat} (h : n ≤ 2 ^ 24) : ∃ p, p < binary32.infinity ∧ magUnits binary32 p = n * one32 := by
  rcases Nat.eq_zero_or_pos n with rfl | hpos
  · exact ⟨0, by decide, by decide⟩
  rcases Nat.eq_or_lt_of_le h with rfl | hlt
  · exact ⟨0x4B800000, by decide, by decide⟩
  have hlog : Nat.log2 n ≤ 23 := Nat.le_of_lt_succ ((Nat.log2_lt hpos.ne').2 hlt)
  obtain ⟨d, hd⟩ := Nat.exists_eq_add_of_le hlog
  have lower : 2 ^ 23 ≤ n * 2 ^ d := by
    rw [hd, Nat.pow_add]
    exact Nat.mul_le_mul_right _ (Nat.log2_self_le hpos.ne')
  have upper : n * 2 ^ d < 2 ^ 24 := by
    have := Nat.mul_lt_mul_of_pos_right (Nat.lt_log2_self (n := n)) (Nat.two_pow_pos d)
    rwa [← Nat.pow_add, show n.log2 + 1 + d = 24 by omega] at this
  refine ⟨(n.log2 + 126) * 2 ^ 23 + n * 2 ^ d, ?_, ?_⟩
  · rw [infinity32]
    omega
  · have value : magUnits binary32 ((n.log2 + 126) * 2 ^ 23 + n * 2 ^ d) = n * 2 ^ d * 2 ^ (n.log2 + 126) :=
      magUnits_significand binary32 upper.le fun _ => lower
    rw [value, one32, Nat.mul_assoc, ← Nat.pow_add]
    congr 2
    omega

/-- One is `2 ^ 149` units. -/
theorem one32_cast : ((one32 : Nat) : ℚ) = 2 ^ 149 := by
  rw [one32]
  exact Nat.cast_pow 2 149

/-- A rounded quotient of units is `rne32` of the rational number it stands for, when that is not zero. -/
theorem roundUnits_eq_rne32 {z : Bool} {m num : Int} {e den : Nat} (he : 0 < e) (hd : 0 < den) (hnum : num ≠ 0)
    (h : (num : ℚ) / den = m / (e * 2 ^ 149)) : roundUnits z m e = rne32 num den := by
  have hd' : (den : ℚ) ≠ 0 := by positivity
  have he' : (e : ℚ) ≠ 0 := by positivity
  rw [div_eq_div_iff hd' (by positivity)] at h
  have cross : num * (e * 2 ^ 149) = m * den := by exact_mod_cast h
  refine (roundUnits_congr hd he (mul_ne_zero hnum (by decide)) ?_).symm
  rw [← cross, one32]
  push_cast
  ring

/-- The quotient `fadd` rounds is the sum. -/
theorem fadd_exact (a b : F32) : ((toUnits a + toUnits b : Int) : ℚ) / ((1 : Nat) * 2 ^ 149) = valueOf a + valueOf b := by
  rw [valueOf, valueOf]
  push_cast
  ring

/-- The quotient `fsub` rounds is the difference. -/
theorem fsub_exact (a b : F32) : ((toUnits a - toUnits b : Int) : ℚ) / ((1 : Nat) * 2 ^ 149) = valueOf a - valueOf b := by
  rw [valueOf, valueOf]
  push_cast
  ring

/-- The quotient `fmul` rounds is the product. -/
theorem fmul_exact (a b : F32) : ((toUnits a * toUnits b : Int) : ℚ) / (one32 * 2 ^ 149) = valueOf a * valueOf b := by
  rw [valueOf, valueOf, one32_cast, div_mul_div_comm, Int.cast_mul]

/-- The quotient `fma` rounds is the product and the sum together. -/
theorem fma_exact (a b c : F32) :
    ((toUnits a * toUnits b + toUnits c * one32 : Int) : ℚ) / (one32 * 2 ^ 149) = valueOf a * valueOf b + valueOf c := by
  have unit : ((one32 : Nat) : ℚ) ≠ 0 := by
    rw [one32_cast]
    positivity
  rw [← fmul_exact, valueOf, Int.cast_add, add_div, Int.cast_mul (toUnits c), Int.cast_natCast,
    mul_comm ((toUnits c : Int) : ℚ), mul_div_mul_left _ _ unit]

/-- The value of a pattern by its sign and magnitude. -/
theorem valueOf_eq_signed (v : F32) : valueOf v = (if signBit v then -1 else 1) * (absUnits v / 2 ^ 149) := by
  rw [valueOf, toUnits]
  split_ifs <;> push_cast <;> ring

/-- `fmul` rounds the product once. -/
theorem fmul_eq_rne32 {a b : F32} {num : Int} {den : Nat} (hd : 0 < den) (hnum : num ≠ 0)
    (h : (num : ℚ) / den = valueOf a * valueOf b) : fmul a b = rne32 num den :=
  roundUnits_eq_rne32 (by decide) hd hnum (h.trans (fmul_exact a b).symm)

/-- `fdiv` rounds the quotient once. -/
theorem fdiv_eq_rne32 {a b : F32} {num : Int} {den : Nat} (hd : 0 < den) (hnum : num ≠ 0) (hb : valueOf b ≠ 0)
    (h : (num : ℚ) / den = valueOf a / valueOf b) : fdiv a b = rne32 num den := by
  have divisor : absUnits b ≠ 0 := by
    intro h0
    rw [valueOf_eq_signed, h0] at hb
    simp at hb
  have divisor' : (absUnits b : ℚ) ≠ 0 := by exact_mod_cast divisor
  rw [fdiv, ← roundUnits_signed]
  refine roundUnits_eq_rne32 (Nat.pos_of_ne_zero divisor) hd hnum ?_
  rw [h, valueOf_eq_signed, valueOf_eq_signed]
  push_cast
  rw [one32_cast]
  have unit : (2 : ℚ) ^ 149 ≠ 0 := by positivity
  generalize (2 : ℚ) ^ 149 = u at *
  cases signBit a <;> cases signBit b <;> simp <;> field_simp

/-- `i2f` is exact up to 2^24. -/
theorem i2f_exact {n : Int} (h : n.natAbs ≤ 2 ^ 24) : isFinite (i2f n) = true ∧ toUnits (i2f n) = n * one32 := by
  obtain ⟨p, hp, value⟩ := exists_magUnits_eq h
  have exact : (n * one32).natAbs = magUnits binary32 p * 1 := by
    rw [value, Int.natAbs_mul, Int.natAbs_natCast, Nat.mul_one]
  obtain ⟨finite, units⟩ := roundUnits_exact (z := false) one_pos hp exact
  rw [Nat.cast_one, mul_one] at units
  exact ⟨finite, units⟩

/-- Settles O9: the exact results are quotients of units, and rounding depends on the quotient alone; a whole number up to 2^24 is
a value of the format, and rounds to itself. -/
theorem operationsRoundOnce : Obligations.OperationsRoundOnce := by
  unfold Obligations.OperationsRoundOnce
  refine ⟨fun a b c num den _ _ _ hd hnum => ⟨?sum, ?difference, ?product, fdiv_eq_rne32 hd hnum, ?fused⟩, fun n hn => ?whole⟩
  case sum => exact fun h => roundUnits_eq_rne32 one_pos hd hnum (h.trans (fadd_exact a b).symm)
  case difference => exact fun h => roundUnits_eq_rne32 one_pos hd hnum (h.trans (fsub_exact a b).symm)
  case product => exact fmul_eq_rne32 hd hnum
  case fused => exact fun h => roundUnits_eq_rne32 (by decide) hd hnum (h.trans (fma_exact a b c).symm)
  case whole =>
    obtain ⟨finite, units⟩ := i2f_exact (n := n) (by zify; exact hn)
    refine ⟨finite, ?_⟩
    rw [valueOf, units, Int.cast_mul, Int.cast_natCast, one32_cast]
    exact mul_div_cancel_right₀ _ (by positivity)

/-- `rne32` rounds the magnitude and keeps the sign. -/
theorem rne32_eq_pack32 (num : Int) (den : Nat) :
    rne32 num den = pack32 (decide (num < 0)) (roundMag binary32 (num.natAbs * one32) den) := by
  have unit : (0 : Int) < one32 := by decide
  have negative : num * one32 < 0 ↔ num < 0 := by constructor <;> intro h <;> nlinarith
  have zero : num * one32 = 0 ↔ num = 0 := mul_eq_zero_iff_right unit.ne'
  have sign : (if num * one32 = 0 then false else decide (num * one32 < 0)) = decide (num < 0) := by
    simp only [negative, zero]
    split_ifs with h <;> simp [h]
  rw [rne32, roundUnits, sign, Int.natAbs_mul, Int.natAbs_natCast]

/-- How far a rational number is from a value, in units over the denominator. -/
theorem distance_eq (num : Int) {den : Nat} (hd : 0 < den) (v : F32) :
    |(num : ℚ) / den - valueOf v| = ((|num * one32 - toUnits v * den| : Int) : ℚ) / (den * 2 ^ 149) := by
  have hd' : (0 : ℚ) < den := by exact_mod_cast hd
  have unit : (0 : ℚ) < 2 ^ 149 := by positivity
  rw [valueOf]
  push_cast
  rw [one32_cast, div_sub_div _ _ hd'.ne' unit.ne', abs_div, abs_of_pos (mul_pos hd' unit)]
  congr 2
  ring

/-- Values are equal when their whole numbers of units are. -/
theorem valueOf_eq_valueOf {v w : F32} : valueOf v = valueOf w ↔ toUnits v = toUnits w := by
  rw [le_antisymm_iff, valueOf_le_valueOf, valueOf_le_valueOf, ← le_antisymm_iff]

/-- Distances of a rational number from two values are equal when their numerators are. -/
theorem distance_eq_iff (num : Int) {den : Nat} (hd : 0 < den) (v w : F32) :
    |(num : ℚ) / den - valueOf v| = |(num : ℚ) / den - valueOf w| ↔
      |num * one32 - toUnits v * den| = |num * one32 - toUnits w * den| := by
  rw [distance_eq num hd, distance_eq num hd, div_left_inj' (by positivity), Int.cast_inj]

/-- Distances of a rational number from two values compare as their numerators do. -/
theorem distance_le_iff (num : Int) {den : Nat} (hd : 0 < den) (v w : F32) :
    |(num : ℚ) / den - valueOf v| ≤ |(num : ℚ) / den - valueOf w| ↔
      |num * one32 - toUnits v * den| ≤ |num * one32 - toUnits w * den| := by
  rw [distance_eq num hd, distance_eq num hd, div_le_div_iff_of_pos_right (by positivity), Int.cast_le]

/-- The units of a packed value. -/
theorem toUnits_pack32 (neg : Bool) {mag : Nat} (h : mag < 2 ^ 31) :
    toUnits (pack32 neg mag) = signed neg (magUnits binary32 mag) := by
  rw [toUnits_eq_signed, signBit_pack32, absUnits, magBits_pack32 neg h]

/-- Bit 0 of a packed value is the parity of its magnitude. -/
theorem getLsbD_zero_pack32 (neg : Bool) (mag : Nat) : (pack32 neg mag).getLsbD 0 = decide (mag % 2 = 1) := by
  rw [pack32, BitVec.getLsbD_append]
  rw [if_pos (by decide), BitVec.getLsbD_ofNat, Nat.testBit_zero]
  simp

/-- Rounding a magnitude overflows from half a unit above the largest finite value on. -/
theorem roundMag32_eq_infinity_iff (a : Nat) {b : Nat} (hb : 0 < b) :
    roundMag binary32 a b = 0x7F800000 ↔ (2 ^ 25 - 1) * 2 ^ 252 * b ≤ a := by
  constructor
  · intro h
    by_contra hlt
    have overflow : 0x7F800000 ≤ binade binary32 a b * 2 ^ 23 + rneQuotient a (b * 2 ^ binade binary32 a b) := by
      rwa [roundMag_eq, infinity32, min_eq_right_iff, roundMagUnbounded] at h
    have significand : rneQuotient a (b * 2 ^ binade binary32 a b) ≤ 2 ^ 24 := significand_le binary32 a hb
    have leading := le_of_binade_pos binary32 a hb (by omega)
    have last : binade binary32 a b < 254 := by
      refine (Nat.pow_lt_pow_iff_right (a := 2) (by omega)).1 (Nat.lt_of_mul_lt_mul_left (a := 2 ^ 23 * b) ?_)
      calc 2 ^ 23 * b * 2 ^ binade binary32 a b = 2 ^ binary32.fracBits * (b * 2 ^ binade binary32 a b) := Nat.mul_assoc ..
        _ ≤ a := leading
        _ < 2 ^ 23 * b * 2 ^ 254 := by omega
    have top : binade binary32 a b = 253 := by omega
    rw [top] at overflow
    obtain ⟨-, half, -⟩ := rneQuotient_spec a (b := b * 2 ^ 253) (by positivity)
    have : 2 * 2 ^ 24 * (b * 2 ^ 253) ≤ 2 * a + b * 2 ^ 253 := le_trans (Nat.mul_le_mul_right _ (by omega)) half
    omega
  · intro h
    refine le_antisymm (roundMag32_le a b) ?_
    calc 0x7F800000 = roundMag binary32 ((2 ^ 25 - 1) * 2 ^ 252) 1 := by decide
      _ ≤ roundMag binary32 a b := roundMag_mono binary32 one_pos hb (by omega)

/-- The finite results are those whose magnitude rounds below infinity. -/
theorem isFinite_rne32 (num : Int) (den : Nat) :
    isFinite (rne32 num den) = true ↔ roundMag binary32 (num.natAbs * one32) den ≠ 0x7F800000 := by
  have bound := roundMag32_le (num.natAbs * one32) den
  rw [isFinite_iff, rne32_eq_pack32, magBits_pack32 _ (by omega)]
  omega

/-- A whole number of ones is its sign before its magnitude in units. -/
theorem mul_one32_eq_signed (num : Int) : num * one32 = signed (decide (num < 0)) (num.natAbs * one32) := by
  rcases lt_or_ge num 0 with h | h
  · rw [signed, decide_eq_true h, if_pos rfl, Nat.cast_mul, ← neg_mul]
    congr 1
    omega
  · rw [signed, decide_eq_false (by omega), if_neg Bool.false_ne_true, Nat.cast_mul]
    congr 1
    omega

/-- What a rounded rational number is worth. -/
theorem toUnits_rne32 (num : Int) (den : Nat) :
    toUnits (rne32 num den) =
      signed (decide (num < 0)) (magUnits binary32 (roundMag binary32 (num.natAbs * one32) den)) := by
  have bound := roundMag32_le (num.natAbs * one32) den
  rw [rne32_eq_pack32, toUnits_pack32 _ (by omega)]

/-- A distance from a signed magnitude, to a magnitude of the same sign. -/
theorem abs_signed_sub (neg : Bool) (a m den : Nat) :
    |signed neg a - signed neg m * den| = |(a : Int) - m * den| := by
  cases neg with
  | false => rfl
  | true =>
    rw [signed, signed, if_pos rfl, if_pos rfl, ← abs_neg]
    congr 1
    ring

/-- A value of the other sign is no nearer than zero is. -/
theorem abs_signed_sub_not (neg : Bool) (a m den : Nat) : |signed neg a - signed (!neg) m * den| = (a : Int) + m * den := by
  cases neg with
  | false =>
    rw [signed, signed, if_neg Bool.false_ne_true, Bool.not_false, if_pos rfl, neg_mul, sub_neg_eq_add]
    exact abs_of_nonneg (by positivity)
  | true =>
    rw [signed, signed, if_pos rfl, Bool.not_true, if_neg Bool.false_ne_true, ← neg_add', abs_neg]
    exact abs_of_nonneg (by positivity)

/-- No finite value is nearer to a signed quotient than the one rounded to, and at a tie the pattern rounded to is even. -/
theorem signed_nearest (neg : Bool) (a : Nat) {den : Nat} (hd : 0 < den) (hfin : roundMag binary32 a den < binary32.infinity)
    {p : F32} (hp : isFinite p = true) :
    |signed neg a - signed neg (magUnits binary32 (roundMag binary32 a den)) * den| ≤ |signed neg a - toUnits p * den| ∧
    (|signed neg a - signed neg (magUnits binary32 (roundMag binary32 a den)) * den| = |signed neg a - toUnits p * den| →
      toUnits p ≠ signed neg (magUnits binary32 (roundMag binary32 a den)) → roundMag binary32 a den % 2 = 0) := by
  have nearest {q : Nat} := @roundMag_nearest binary32 (by decide) a den hd hfin q
  rw [abs_signed_sub, toUnits_eq_signed]
  by_cases same : signBit p = neg
  · rw [same, abs_signed_sub]
    obtain ⟨near, tie⟩ := nearest (q := magBits p) (by rw [infinity32]; exact (isFinite_iff p).1 hp)
    refine ⟨near, fun equal differ => tie equal fun h => differ ?_⟩
    rw [absUnits, h]
  · rw [show signBit p = !neg by simpa [Bool.eq_not] using same, abs_signed_sub_not]
    obtain ⟨near, tie⟩ := nearest (q := 0) (by decide)
    rw [show magUnits binary32 0 = 0 from rfl, Nat.cast_zero, zero_mul, sub_zero, Nat.abs_cast] at near tie
    have away : (0 : Int) ≤ absUnits p * den := by positivity
    refine ⟨by linarith, fun equal differ => tie (by linarith) fun h => differ ?_⟩
    have zero : (absUnits p : Int) * den = 0 := by linarith
    have none : absUnits p = 0 := by
      have := (mul_eq_zero.1 zero).resolve_right (by exact_mod_cast hd.ne')
      exact_mod_cast this
    rw [none, ← h]
    simp [signed, magUnits]

/-- The least magnitude that overflows, in units over a denominator and as a rational number. -/
theorem threshold_iff (num : Int) {den : Nat} (hd : 0 < den) :
    (2 ^ 25 - 1) * 2 ^ 252 * den ≤ num.natAbs * one32 ↔ ((2 ^ 25 - 1) * 2 ^ 103 : ℚ) ≤ |(num : ℚ) / den| := by
  have hd' : (0 : ℚ) < den := by exact_mod_cast hd
  rw [abs_div, abs_of_pos hd', le_div_iff₀ hd', ← Int.cast_abs, Int.abs_eq_natAbs]
  have whole : ((2 ^ 25 - 1) * 2 ^ 103 * den : ℚ) ≤ ((num.natAbs : Int) : ℚ) ↔ (2 ^ 25 - 1) * 2 ^ 103 * den ≤ num.natAbs := by
    rw [Int.cast_natCast, ← Nat.cast_le (α := ℚ)]
    norm_num
  rw [whole, one32]
  constructor <;> intro h <;> omega

/-- Settles O8: distances from a rational number compare as whole numbers of units over its denominator, and overflow is where the
rounded significand leaves the last binade. -/
theorem roundsToNearestEven : Obligations.RoundsToNearestEven := by
  unfold Obligations.RoundsToNearestEven
  intro num den hd
  refine ⟨?nearest, ?overflow, ?infinite⟩
  case nearest =>
    intro finite p hp
    have bound := roundMag32_le (num.natAbs * one32) den
    have below : roundMag binary32 (num.natAbs * one32) den < binary32.infinity := by
      have := (isFinite_rne32 num den).1 finite
      rw [infinity32]
      omega
    obtain ⟨near, tie⟩ := signed_nearest (decide (num < 0)) (num.natAbs * one32) hd below hp
    rw [← mul_one32_eq_signed, ← toUnits_rne32] at near tie
    refine ⟨(distance_le_iff num hd _ _).2 near, fun equal differ => ?_⟩
    have even := tie ((distance_eq_iff num hd _ _).1 equal) fun h => differ (valueOf_eq_valueOf.2 h)
    rw [rne32_eq_pack32, getLsbD_zero_pack32, even]
    rfl
  case overflow =>
    rw [← Bool.not_eq_true, isFinite_rne32, not_not, roundMag32_eq_infinity_iff _ hd, threshold_iff num hd]
  case infinite =>
    intro infinite
    rw [← Bool.not_eq_true, isFinite_rne32, not_not] at infinite
    rw [rne32_eq_pack32, infinite]
    by_cases h : num < 0
    · rw [decide_eq_true h, if_pos h]
      decide
    · rw [decide_eq_false h, if_neg h]
      decide

end Sys2Proof.Machine
end

