-- ==== Sys2Proof/Proofs/Conversions.lean ====
section
/-! The fraction of a bracket and the mph conversion (43_conversion.md R192, R197, R198), and the constants rounded from their
decimal literals (00_scope.md R8; 20_memory.md R62, R63). -/

namespace Sys2Proof.Machine

/-- Settles O10: a bit vector holds the numbers below its power of two, and the two literals round to the constants' bits. -/
theorem fixedConstants : Obligations.FixedConstants := by
  unfold Obligations.FixedConstants
  refine ⟨rfl, rfl, fun n => ⟨fun h => ⟨BitVec.ofNat 12 n, ?_⟩, ?_⟩, rfl, by decide, by decide +kernel⟩
  · rw [BitVec.toNat_ofNat, Nat.mod_eq_of_lt h]
  · rintro ⟨raw, rfl⟩
    exact raw.isLt

/-- Settles O12: each table row by evaluation of `rne32` on its literal. -/
theorem defaultVelocitiesRounded : Obligations.DefaultVelocitiesRounded := by
  unfold Obligations.DefaultVelocitiesRounded
  decide

/-- `i2f` is exact on 12-bit numbers. -/
theorem absUnits_i2f {n : Nat} (h : n ≤ 4095) : absUnits (i2f n) = n * one32 := by
  have units := (i2f_exact (n := n) (by omega)).2
  rw [(i2f_plain h).toUnits] at units
  exact_mod_cast units

/-- The magnitude of a fraction is its exact quotient rounded. -/
theorem magBits_fraction {num den : Nat} (h2 : num ≤ den) (h3 : den ≤ 4095) :
    magBits (fdiv (i2f num) (i2f den)) = roundMag binary32 (num * one32 * one32) (den * one32) := by
  have bound := roundMag32_le (num * one32 * one32) (den * one32)
  rw [fdiv, absUnits_i2f h3, absUnits_i2f (h2.trans h3), magBits_pack32 _ (by omega)]

/-- A plain value is its magnitude. -/
theorem Plain.eq_iff_magBits {v w : F32} (hv : Plain v) (hw : Plain w) : v = w ↔ magBits v = magBits w := by
  refine ⟨congrArg _, fun h => ?_⟩
  rw [← pack32_self v, ← pack32_self w, hv.2, hw.2, h]

/-- The fraction is the 1.0 pattern at the upper point only (R192). -/
theorem fraction_eq_one_iff {num den : Nat} (h1 : 1 ≤ num) (h2 : num ≤ den) (h3 : den ≤ 4095) :
    fdiv (i2f num) (i2f den) = 0x3F800000#32 ↔ num = den := by
  have scale : 0 < den * one32 := Nat.mul_pos (by omega) (by decide)
  have one : Plain 0x3F800000#32 := ⟨by decide, by decide⟩
  rw [(fdiv_plain h1 h2 h3).1.eq_iff_magBits one, magBits_fraction h2 h3, show magBits 0x3F800000#32 = 0x3F800000 by decide]
  constructor
  · intro h
    by_contra hne
    have below : num * one32 * one32 ≤ magUnits binary32 0x3F7FFFFF * (den * one32) := by
      rw [show magUnits binary32 0x3F7FFFFF = (2 ^ 24 - 1) * 2 ^ 125 by decide, ← Nat.mul_assoc]
      refine Nat.mul_le_mul_right _ ?_
      rw [one32]
      omega
    have := roundMag_le binary32 scale (by decide) below
    omega
  · rintro rfl
    have exact := roundMag_magUnits binary32 (p := 0x3F800000) scale (by decide)
    rwa [show magUnits binary32 0x3F800000 = one32 by decide, Nat.mul_comm one32] at exact

/-- The value of a plain pattern. -/
theorem Plain.valueOf {v : F32} (h : Plain v) : valueOf v = absUnits v / 2 ^ 149 := by
  rw [Machine.valueOf, h.toUnits, Int.cast_natCast]

/-- Settles O15: the exact fraction of 12-bit numbers is at least a unit, and at most 1 less half the spacing below 1.0 unless it is 1. -/
theorem fractionInUnitInterval : Obligations.FractionInUnitInterval := by
  unfold Obligations.FractionInUnitInterval
  intro num den h1 h2 h3 t
  obtain ⟨plain, atMostOne⟩ := fdiv_plain h1 h2 h3
  have scale : 0 < den * one32 := Nat.mul_pos (by omega) (by decide)
  refine ⟨plain.1, ?positive, ?atMostOne, fraction_eq_one_iff h1 h2 h3⟩
  case positive =>
    have unit : 1 ≤ magBits t := by
      rw [magBits_fraction h2 h3]
      refine le_roundMag binary32 scale (by decide) ?_
      rw [show magUnits binary32 1 = 1 by decide, Nat.one_mul]
      refine Nat.mul_le_mul_right _ (le_trans (b := 1 * one32) ?_ (Nat.mul_le_mul_right _ h1))
      rw [one32]
      omega
    have nonzero : absUnits t ≠ 0 := fun h => by
      have := magUnits_eq_zero.1 h
      omega
    rw [plain.valueOf]
    positivity
  case atMostOne =>
    have units := magUnits_mono binary32 (q := 0x3F800000) (by decide) atMostOne
    rw [show magUnits binary32 0x3F800000 = 2 ^ 149 by decide] at units
    rw [plain.valueOf, div_le_one (by positivity)]
    exact_mod_cast units

/-- The one binary32 multiply keeps the operand's sign and rounds the product of the magnitudes (R197). -/
theorem fmul_mphFactor (v : F32) :
    fmul v mphFactor = pack32 (signBit v) (roundMag binary32 (absUnits v * absUnits mphFactor) one32) := by
  rw [← roundUnits_signed, fmul, toUnits_eq_signed, toUnits_eq_signed, signed_mul_signed,
    show signBit mphFactor = false from rfl, Bool.xor_false]

/-- A value of zero has no magnitude. -/
theorem absUnits_of_valueOf_zero {v : F32} (h : valueOf v = 0) : absUnits v = 0 := by
  rw [valueOf_eq_signed] at h
  have : (absUnits v : ℚ) = 0 := by
    split_ifs at h <;> simpa using h
  exact_mod_cast this

/-- A zero is its sign before no magnitude. -/
theorem pack32_of_valueOf_zero {v : F32} (h : valueOf v = 0) : pack32 (signBit v) 0 = v := by
  have zero : magBits v = 0 := magUnits_eq_zero.1 (absUnits_of_valueOf_zero h)
  rw [← zero, pack32_self]

/-- Settles O19: the sign is kept on its own beside the rounded magnitude of the one product. -/
theorem mphIsOneProduct : Obligations.MphIsOneProduct := by
  unfold Obligations.MphIsOneProduct
  intro c v precision finite
  rw [mph_of_binary32 precision]
  refine ⟨?sign, fun zero => ?zero, fun num den hd hnum h => fmul_eq_rne32 hd hnum h⟩
  case sign => exact (congrArg signBit (fmul_mphFactor v)).trans (signBit_pack32 _ _)
  case zero =>
    rw [show (0x400F29F7#32 : F32) = mphFactor from rfl, fmul_mphFactor, absUnits_of_valueOf_zero zero, Nat.zero_mul,
      roundMag_zero, pack32_of_valueOf_zero zero]

/-- The product of R197 in binary64, before it is rounded again to binary32. -/
def product64 (v : F32) : Nat := roundMag binary64 (absUnits v * magUnits binary64 mphFactor64) one32

/-- The alternative multiply keeps the operand's sign and rounds the binary64 product again (R197). -/
theorem mph64_eq (v : F32) :
    mph64 v = pack32 (signBit v) (roundMag binary32 (magUnits binary64 (product64 v)) (2 ^ (1074 - 149))) := rfl

/-- The product of a finite operand lies far below the largest binary64 value. -/
theorem product64_lt {v : F32} (finite : isFinite v = true) : product64 v < 0x7FF0000000000000 := by
  have operand : absUnits v ≤ magUnits binary32 0x7F7FFFFF := magUnits_mono binary32 (by decide) (by
    have := (isFinite_iff v).1 finite
    omega)
  have bound : magUnits binary32 0x7F7FFFFF * magUnits binary64 mphFactor64 ≤ magUnits binary64 0x4810000000000000 * one32 := by
    decide +kernel
  have : product64 v ≤ 0x4810000000000000 :=
    roundMag_le binary64 (by decide) (by decide) ((Nat.mul_le_mul_right _ operand).trans bound)
  omega

/-- The exact product in units of `2 ^ -1074` over `2 ^ 149`. -/
theorem exact_product64 (v : F32) : |valueOf v| * valueOf64 mphFactor64 =
    ((absUnits v * magUnits binary64 mphFactor64 : Nat) : ℚ) / (2 ^ 149 * 2 ^ 1074) := by
  have magnitude : |valueOf v| = absUnits v / 2 ^ 149 := by
    rw [valueOf_eq_signed, abs_mul, abs_of_nonneg (a := (absUnits v : ℚ) / 2 ^ 149) (by positivity)]
    split_ifs <;> simp
  rw [magnitude, valueOf64, div_mul_div_comm, Nat.cast_mul]

/-- How far the exact product is from a binary64 value. -/
theorem distance64_eq (v : F32) (p : Nat) :
    |(|valueOf v| * valueOf64 mphFactor64) - valueOf64 p| =
      ((|((absUnits v * magUnits binary64 mphFactor64 : Nat) : Int) - magUnits binary64 p * one32| : Int) : ℚ) /
        (2 ^ 149 * 2 ^ 1074) := by
  have unit32 : (0 : ℚ) < 2 ^ 149 := by positivity
  have unit64 : (0 : ℚ) < 2 ^ 1074 := by positivity
  have cast : (((absUnits v * magUnits binary64 mphFactor64 : Nat) : Int) - magUnits binary64 p * one32 : Int) =
      ((absUnits v * magUnits binary64 mphFactor64 : Nat) : ℚ) - magUnits binary64 p * 2 ^ 149 := by
    rw [← one32_cast]
    push_cast
    ring
  rw [exact_product64, valueOf64, Int.cast_abs, cast]
  generalize (2 : ℚ) ^ 149 = u at *
  generalize (2 : ℚ) ^ 1074 = w at *
  rw [show (magUnits binary64 p : ℚ) / w = magUnits binary64 p * u / (u * w) by field_simp, ← sub_div, abs_div,
    abs_of_pos (mul_pos unit32 unit64)]

/-- Settles O57: the first rounding is nearest in binary64, its result lies in the range of that format, and the second is `rne32`. -/
theorem mphBinary64RoundsTwice : Obligations.MphBinary64RoundsTwice := by
  unfold Obligations.MphBinary64RoundsTwice
  intro c v precision finite
  rw [mph_of_binary64 precision, mph64_eq]
  have below := product64_lt finite
  refine ⟨signBit_pack32 _ _, fun zero => ?zero, product64 v, below, fun p' hp' => ?nearest, fun num den hd hnum h => ?again⟩
  case zero =>
    rw [product64, absUnits_of_valueOf_zero zero, Nat.zero_mul, roundMag_zero, show magUnits binary64 0 = 0 from rfl,
      roundMag_zero, pack32_of_valueOf_zero zero]
  case nearest =>
    have infinity64 : binary64.infinity = 0x7FF0000000000000 := by decide
    obtain ⟨near, tie⟩ := roundMag_nearest binary64 (by decide) (a := absUnits v * magUnits binary64 mphFactor64)
      (b := one32) (by decide) (infinity64 ▸ below) (infinity64 ▸ hp')
    rw [show (0x4001E53EDAAF842A : Nat) = mphFactor64 from rfl, distance64_eq, distance64_eq,
      div_le_div_iff_of_pos_right (by positivity), div_left_inj' (by positivity), Int.cast_le, Int.cast_inj]
    exact ⟨near, tie⟩
  case again =>
    rw [← roundUnits_signed]
    refine roundUnits_eq_rne32 (by positivity) hd hnum (h.trans ?_)
    have unit : ((2 ^ (1074 - 149) : Nat) : ℚ) * 2 ^ 149 = 2 ^ 1074 := by
      rw [Nat.cast_pow, Nat.cast_ofNat, ← pow_add]
    rw [unit, valueOf64]
    cases signBit v <;> simp [signed, neg_div]

end Sys2Proof.Machine
end

