-- ==== Sys2Proof/Proofs/Brackets.lean ====
section
/-! Interpolation on a bracket (43_conversion.md R191 to R196): which bracket holds a raw value, how the rounded result orders, and how
far it lies from the exact piecewise-linear function. -/

namespace Sys2Proof.Machine

/-! ### Rounding of non-negative quotients -/

/-- A finite value that is not negative is worth its magnitude. -/
theorem absUnits_of_nonneg {v : F32} (h : 0 ≤ toUnits v) : (absUnits v : Int) = toUnits v := by
  unfold toUnits at *
  split_ifs at * <;> omega

/-- Plain values are equal when they are worth the same. -/
theorem Plain.eq_of_toUnits {v w : F32} (hv : Plain v) (hw : Plain w)
    (h : Machine.toUnits v = Machine.toUnits w) : v = w := by
  rw [hv.toUnits, hw.toUnits, Int.natCast_inj] at h
  rw [hv.eq_iff_magBits hw, ← roundMag_magUnits binary32 one_pos hv.lt, ← roundMag_magUnits binary32 one_pos hw.lt]
  exact congrArg (fun units => roundMag binary32 (units * 1) 1) h

/-- A rounded quotient that is not negative is worth its rounded magnitude. -/
theorem toUnits_roundUnits (z : Bool) {m : Int} (hm : 0 ≤ m) (e : Nat) :
    toUnits (roundUnits z m e) = magUnits binary32 (roundMag binary32 m.natAbs e) := by
  obtain ⟨sign, magnitude⟩ := roundUnits_parts z m e
  rw [toUnits, sign, absUnits, magnitude]
  rcases hm.eq_or_lt with rfl | positive
  · rw [Int.natAbs_zero, roundMag_zero, show magUnits binary32 0 = 0 from rfl]
    simp
  · rw [if_neg positive.ne', decide_eq_false (by omega), if_neg Bool.false_ne_true]

/-- Rounding does not make a quotient negative. -/
theorem roundUnits_nonneg (z : Bool) {m : Int} (hm : 0 ≤ m) (e : Nat) : 0 ≤ toUnits (roundUnits z m e) := by
  rw [toUnits_roundUnits z hm e]
  positivity

/-- A rounded quotient is finite when its magnitude rounds below infinity. -/
theorem isFinite_roundUnits {z : Bool} {m : Int} {e : Nat} :
    isFinite (roundUnits z m e) = true ↔ roundMag binary32 m.natAbs e < binary32.infinity := by
  rw [isFinite_iff, (roundUnits_parts z m e).2, infinity32]

/-- The magnitude of a finite value lies below infinity. -/
theorem magBits_lt {w : F32} (hw : isFinite w = true) : magBits w < binary32.infinity := by
  rw [infinity32]
  exact (isFinite_iff w).1 hw

/-- A quotient at most a finite value rounds to at most that value. -/
theorem roundUnits_le {z : Bool} {m : Int} {e : Nat} {w : F32} (he : 0 < e) (hm : 0 ≤ m) (hw : isFinite w = true)
    (h : m ≤ toUnits w * e) : isFinite (roundUnits z m e) = true ∧ toUnits (roundUnits z m e) ≤ toUnits w := by
  have hw0 : 0 ≤ toUnits w := by
    by_contra negative
    have : toUnits w * e < 0 := mul_neg_of_neg_of_pos (by omega) (by exact_mod_cast he)
    omega
  have units := absUnits_of_nonneg hw0
  rw [← units] at h ⊢
  have rounded : roundMag binary32 m.natAbs e ≤ magBits w := roundMag_le binary32 he (magBits_lt hw) (by
    zify
    rw [abs_of_nonneg hm]
    exact h)
  refine ⟨isFinite_roundUnits.2 (lt_of_le_of_lt rounded (magBits_lt hw)), ?_⟩
  rw [toUnits_roundUnits z hm e]
  exact_mod_cast magUnits_mono binary32 (magBits_lt hw) rounded

/-- A greater quotient with a finite result does not round to a smaller value. -/
theorem roundUnits_mono {z z' : Bool} {m m' : Int} {e e' : Nat} (he : 0 < e) (he' : 0 < e') (hm : 0 ≤ m)
    (h : m * e' ≤ m' * e) (finite : isFinite (roundUnits z' m' e') = true) :
    toUnits (roundUnits z m e) ≤ toUnits (roundUnits z' m' e') := by
  have hm' : 0 ≤ m' := by
    by_contra negative
    have : m' * e < 0 := mul_neg_of_neg_of_pos (by omega) (by exact_mod_cast he)
    have : 0 ≤ m * e' := by positivity
    omega
  rw [toUnits_roundUnits z hm e, toUnits_roundUnits z' hm' e']
  have order : roundMag binary32 m.natAbs e ≤ roundMag binary32 m'.natAbs e' := roundMag_mono binary32 he he' (by
    zify
    rw [abs_of_nonneg hm, abs_of_nonneg hm']
    exact h)
  exact_mod_cast magUnits_mono binary32 (isFinite_roundUnits.1 finite) order

/-- A quotient at least a finite value, with a finite result, rounds to at least that value. -/
theorem le_roundUnits {z : Bool} {m : Int} {e : Nat} {w : F32} (he : 0 < e) (hw : isFinite w = true) (hw0 : 0 ≤ toUnits w)
    (h : toUnits w * e ≤ m) (finite : isFinite (roundUnits z m e) = true) : toUnits w ≤ toUnits (roundUnits z m e) := by
  have hm : 0 ≤ m := le_trans (by positivity) h
  have units := absUnits_of_nonneg hw0
  rw [← units] at h ⊢
  rw [toUnits_roundUnits z hm e]
  have rounded : magBits w ≤ roundMag binary32 m.natAbs e := le_roundMag binary32 he (magBits_lt hw) (by
    zify
    rw [abs_of_nonneg hm]
    exact h)
  exact_mod_cast magUnits_mono binary32 (isFinite_roundUnits.1 finite) rounded

/-- A quotient equal to a finite value rounds to it. -/
theorem roundUnits_eq {z : Bool} {m : Int} {e : Nat} {w : F32} (he : 0 < e) (hw : isFinite w = true) (hw0 : 0 ≤ toUnits w)
    (h : m = toUnits w * e) : toUnits (roundUnits z m e) = toUnits w := by
  obtain ⟨finite, le⟩ := roundUnits_le (z := z) he (h ▸ by positivity) hw h.le
  exact le_antisymm le (le_roundUnits he hw hw0 h.ge finite)

/-- Rounding moves a quotient of less than `2 ^ (24 + k)` units by at most half of `2 ^ k` units. -/
theorem roundUnits_error {z : Bool} {m : Int} {e k : Nat} (he : 0 < e) (hm : 0 ≤ m) (hk : k ≤ 252)
    (h : (m : ℚ) / (e * 2 ^ 149) < 2 ^ (24 + k) / 2 ^ 149) :
    |valueOf (roundUnits z m e) - m / (e * 2 ^ 149)| ≤ 2 ^ k / 2 ^ 150 := by
  obtain ⟨a, rfl⟩ := Int.eq_ofNat_of_zero_le hm
  have he' : (0 : ℚ) < e := by exact_mod_cast he
  have unit : (0 : ℚ) < 2 ^ 149 := by positivity
  have small : a < 2 ^ (24 + k) * e := by
    rw [div_lt_div_iff₀ (mul_pos he' unit) unit, ← mul_assoc, mul_lt_mul_iff_of_pos_right unit] at h
    exact_mod_cast h
  have finite : roundMag binary32 a e < binary32.infinity := by
    have bound := roundMag32_le a e
    have notInfinite : roundMag binary32 a e ≠ 0x7F800000 := by
      rw [ne_eq, roundMag32_eq_infinity_iff a he, not_le]
      rw [Nat.pow_add] at small
      exact small.trans_le
        (Nat.mul_le_mul_right _ (Nat.mul_le_mul (by decide) (Nat.pow_le_pow_right (by decide) hk)))
    rw [infinity32]
    omega
  obtain ⟨above, below⟩ := roundMag_error binary32 he small finite
  have units : toUnits (roundUnits z a e) = magUnits binary32 (roundMag binary32 a e) := toUnits_roundUnits z hm e
  rw [valueOf, units]
  generalize magUnits binary32 (roundMag binary32 a e) = r at *
  have above' : (2 * (r * e) : ℚ) ≤ 2 * a + 2 ^ k * e := by exact_mod_cast above
  have below' : (2 * a : ℚ) ≤ 2 * (r * e) + 2 ^ k * e := by exact_mod_cast below
  rw [show (2 : ℚ) ^ 150 = 2 ^ 149 * 2 from pow_succ 2 149, Int.cast_natCast, Int.cast_natCast]
  generalize (2 : ℚ) ^ 149 = u at *
  rw [show (r : ℚ) / u - a / (e * u) = (r * e - a) / (e * u) by field_simp, abs_div, abs_of_pos (mul_pos he' unit),
    div_le_div_iff₀ (mul_pos he' unit) (by positivity)]
  have distance : |(r * e - a : ℚ)| ≤ 2 ^ k * e / 2 := abs_le.2 ⟨by linarith, by linarith⟩
  calc |(r * e - a : ℚ)| * (u * 2) ≤ 2 ^ k * e / 2 * (u * 2) := by gcongr
    _ = 2 ^ k * (e * u) := by ring

/-- A product below 2 is rounded by at most `2 ^ -24`. -/
theorem fmul_error {a b : F32} (ha : 0 ≤ toUnits a) (hb : 0 ≤ toUnits b) (h : valueOf a * valueOf b < 2) :
    |valueOf (fmul a b) - valueOf a * valueOf b| ≤ 1 / 2 ^ 24 := by
  have error := roundUnits_error (z := signBit a ^^ signBit b) (e := one32) (k := 126) (by decide) (mul_nonneg ha hb)
    (by decide) (by rw [fmul_exact]; norm_num [h])
  rw [fmul_exact] at error
  exact error.trans_eq (by norm_num)

/-- A sum below 16 is rounded by at most `2 ^ -21`. -/
theorem fadd_error {a b : F32} (ha : 0 ≤ toUnits a) (hb : 0 ≤ toUnits b) (h : valueOf a + valueOf b < 16) :
    |valueOf (fadd a b) - (valueOf a + valueOf b)| ≤ 1 / 2 ^ 21 := by
  have error := roundUnits_error (z := signBit a && signBit b) (k := 129) one_pos (add_nonneg ha hb)
    (by decide) (by rw [fadd_exact]; norm_num [h])
  rw [fadd_exact] at error
  exact error.trans_eq (by norm_num)

/-- A product and sum below 16, rounded once, is rounded by at most `2 ^ -21`. -/
theorem fma_error {a b c : F32} (ha : 0 ≤ toUnits a) (hb : 0 ≤ toUnits b) (hc : 0 ≤ toUnits c)
    (h : valueOf a * valueOf b + valueOf c < 16) :
    |valueOf (fma a b c) - (valueOf a * valueOf b + valueOf c)| ≤ 1 / 2 ^ 21 := by
  have error := roundUnits_error (z := (signBit a ^^ signBit b) && signBit c) (e := one32) (k := 129) (by decide)
    (add_nonneg (mul_nonneg ha hb) (mul_nonneg hc (Int.natCast_nonneg _))) (by decide) (by rw [fma_exact]; norm_num [h])
  rw [fma_exact] at error
  exact error.trans_eq (by norm_num)

/-- The fraction of 12-bit numbers below its upper point is rounded by at most `2 ^ -25`. -/
theorem fdiv_error {num den : Nat} (h2 : num < den) (h3 : den ≤ 4095) :
    |valueOf (fdiv (i2f num) (i2f den)) - num / den| ≤ 1 / 2 ^ 25 := by
  have hden : (0 : ℚ) < den := by exact_mod_cast (by omega : 0 < den)
  have unit : ((one32 : Nat) : ℚ) ≠ 0 := by
    rw [one32_cast]
    positivity
  have rounded : fdiv (i2f num) (i2f den) = roundUnits false (num * one32 * one32 : Nat) (den * one32) := by
    rw [fdiv, (i2f_plain (h2.le.trans h3)).2, (i2f_plain h3).2, absUnits_i2f h3, absUnits_i2f (h2.le.trans h3)]
    exact (roundUnits_signed false (num * one32 * one32) (den * one32)).symm
  have quotient : (((num * one32 * one32 : Nat) : Int) : ℚ) / ((den * one32 : Nat) * 2 ^ 149) = num / den := by
    rw [← one32_cast]
    push_cast
    field_simp
  have error := roundUnits_error (z := false) (m := (num * one32 * one32 : Nat)) (e := den * one32) (k := 125)
    (Nat.mul_pos (by omega) (by decide)) (Int.natCast_nonneg _) (by decide) (by
      rw [quotient, div_self (by positivity), div_lt_one hden]
      exact_mod_cast h2)
  rw [quotient] at error
  rw [rounded]
  exact error.trans_eq (by norm_num)

/-! ### One segment -/

/-- The multiply-accumulate of R191 on a segment from `lo` to `hi`, at the fraction `t`, rounded once or twice (R195). -/
def mac (fused : Bool) (t lo hi : F32) : F32 :=
  if fused then fma t (fsub hi lo) lo else fadd lo (fmul t (fsub hi lo))

/-- Interpolation is the multiply-accumulate at the fraction of the bracket (R191). -/
theorem interpolate_eq_mac (c : Config) (raw : Raw) (lo hi : Point) :
    interpolate c raw lo hi =
      mac c.macFused (fdiv (i2f ((raw.toNat : Int) - lo.raw.toNat)) (i2f ((hi.raw.toNat : Int) - lo.raw.toNat)))
        lo.vel hi.vel := rfl

/-- 15.0, which no velocity of a table exceeds (R7). -/
abbrev fifteen : F32 := 0x41700000#32

/-- Two velocities as neighbours in a table (R7). -/
structure Segment (lo hi : F32) : Prop where
  finite : isFinite lo = true
  finiteUpper : isFinite hi = true
  nonneg : 0 ≤ toUnits lo
  rises : toUnits lo ≤ toUnits hi
  bounded : toUnits hi ≤ toUnits fifteen

/-- A fraction: plain and at most 1.0 (R192). -/
structure Fraction (t : F32) : Prop where
  plain : Plain t
  atMostOne : magBits t ≤ 0x3F800000

section segment
variable {lo hi t t' : F32}

/-- A fraction is worth at most one. -/
theorem Fraction.units (ht : Fraction t) : 0 ≤ toUnits t ∧ toUnits t ≤ one32 := by
  have bound := magUnits_mono binary32 (q := 0x3F800000) (by decide) ht.atMostOne
  rw [show magUnits binary32 0x3F800000 = one32 by decide] at bound
  rw [ht.plain.toUnits]
  exact ⟨by positivity, by exact_mod_cast bound⟩

/-- The rounded height of a segment is finite and not negative. -/
theorem Segment.height (h : Segment lo hi) : isFinite (fsub hi lo) = true ∧ 0 ≤ toUnits (fsub hi lo) ∧
    toUnits (fsub hi lo) ≤ toUnits fifteen := by
  have rise : 0 ≤ toUnits hi - toUnits lo := sub_nonneg.2 h.rises
  obtain ⟨finite, bounded⟩ := roundUnits_le (z := signBit hi && !signBit lo) (e := 1) (w := fifteen) one_pos rise rfl (by
    have := h.nonneg
    have := h.bounded
    omega)
  exact ⟨finite, roundUnits_nonneg _ rise 1, bounded⟩

/-- The rounded product of a fraction and a height lies between zero and the height. -/
theorem Segment.product (h : Segment lo hi) (ht : Fraction t) : isFinite (fmul t (fsub hi lo)) = true ∧
    0 ≤ toUnits (fmul t (fsub hi lo)) ∧ toUnits (fmul t (fsub hi lo)) ≤ toUnits (fsub hi lo) := by
  obtain ⟨finite, nonneg, -⟩ := h.height
  obtain ⟨ht0, ht1⟩ := ht.units
  have product : 0 ≤ toUnits t * toUnits (fsub hi lo) := mul_nonneg ht0 nonneg
  obtain ⟨finite', bounded⟩ := roundUnits_le (z := signBit t ^^ signBit (fsub hi lo)) (e := one32) (by decide) product finite (by
    rw [mul_comm]
    exact mul_le_mul_of_nonneg_left ht1 nonneg)
  exact ⟨finite', roundUnits_nonneg _ product _, bounded⟩

/-- The multiply-accumulate is finite. -/
theorem Segment.mac_finite (h : Segment lo hi) (ht : Fraction t) (fused : Bool) : isFinite (mac fused t lo hi) = true := by
  have thirty : toUnits 0x41F00000#32 = 2 * toUnits fifteen := by decide
  have finite : isFinite 0x41F00000#32 = true := by decide
  obtain ⟨-, height, heightBounded⟩ := h.height
  obtain ⟨-, product, productBounded⟩ := h.product ht
  obtain ⟨ht0, ht1⟩ := ht.units
  have start : toUnits lo ≤ toUnits fifteen := h.rises.trans h.bounded
  have lower := h.nonneg
  cases fused with
  | true =>
    have unit : (0 : Int) ≤ one32 := Int.natCast_nonneg _
    have scaled : toUnits t * toUnits (fsub hi lo) ≤ one32 * toUnits fifteen := mul_le_mul ht1 heightBounded height unit
    have start' : toUnits lo * one32 ≤ toUnits fifteen * one32 := mul_le_mul_of_nonneg_right start unit
    have sum : toUnits t * toUnits (fsub hi lo) + toUnits lo * one32 ≤ toUnits 0x41F00000#32 * one32 := by
      rw [thirty]
      linarith
    exact (roundUnits_le (by decide) (add_nonneg (mul_nonneg ht0 height) (mul_nonneg lower unit)) finite sum).1
  | false =>
    have sum : toUnits lo + toUnits (fmul t (fsub hi lo)) ≤ toUnits 0x41F00000#32 * (1 : Nat) := by
      rw [thirty, Nat.cast_one]
      linarith
    exact (roundUnits_le one_pos (add_nonneg lower product) finite sum).1

/-- The multiply-accumulate does not fall below the lower velocity. -/
theorem Segment.le_mac (h : Segment lo hi) (ht : Fraction t) (fused : Bool) : toUnits lo ≤ toUnits (mac fused t lo hi) := by
  obtain ⟨-, height, -⟩ := h.height
  obtain ⟨-, product, -⟩ := h.product ht
  have finite := h.mac_finite ht fused
  cases fused with
  | true => exact le_roundUnits (by decide) h.finite h.nonneg (by have := mul_nonneg ht.units.1 height; linarith) finite
  | false => exact le_roundUnits one_pos h.finite h.nonneg (by push_cast; linarith) finite

/-- A greater fraction does not give a smaller velocity. -/
theorem Segment.mac_mono (h : Segment lo hi) (ht : Fraction t) (ht' : Fraction t') (le : toUnits t ≤ toUnits t')
    (fused : Bool) : toUnits (mac fused t lo hi) ≤ toUnits (mac fused t' lo hi) := by
  obtain ⟨-, height, -⟩ := h.height
  obtain ⟨-, product, -⟩ := h.product ht
  have finite := h.mac_finite ht' fused
  have products : toUnits t * toUnits (fsub hi lo) ≤ toUnits t' * toUnits (fsub hi lo) := mul_le_mul_of_nonneg_right le height
  have lower : 0 ≤ toUnits t * toUnits (fsub hi lo) := mul_nonneg ht.units.1 height
  cases fused with
  | true =>
    have start : 0 ≤ toUnits lo * one32 := mul_nonneg h.nonneg (by positivity)
    exact roundUnits_mono (by decide) (by decide) (by linarith) (mul_le_mul_of_nonneg_right (by linarith) (by positivity)) finite
  | false =>
    have rounded : toUnits (fmul t (fsub hi lo)) ≤ toUnits (fmul t' (fsub hi lo)) :=
      roundUnits_mono (by decide) (by decide) lower (mul_le_mul_of_nonneg_right products (by positivity)) (h.product ht').1
    exact roundUnits_mono one_pos one_pos (by linarith [h.nonneg])
      (mul_le_mul_of_nonneg_right (by linarith) (by positivity)) finite

/-- When the height of the segment is exact, the fraction 1.0 gives the upper velocity (R193). -/
theorem Segment.mac_one (h : Segment lo hi) (exact : toUnits (fsub hi lo) = toUnits hi - toUnits lo) (fused : Bool) :
    toUnits (mac fused 0x3F800000#32 lo hi) = toUnits hi := by
  have one : toUnits 0x3F800000#32 = one32 := by decide
  have upper : 0 ≤ toUnits hi := h.nonneg.trans h.rises
  cases fused with
  | true =>
    refine roundUnits_eq (by decide) h.finiteUpper upper ?_
    rw [one, exact]
    ring
  | false =>
    have product : toUnits (fmul 0x3F800000#32 (fsub hi lo)) = toUnits (fsub hi lo) :=
      roundUnits_eq (by decide) h.height.1 h.height.2.1 (by rw [one, mul_comm])
    refine roundUnits_eq one_pos h.finiteUpper upper ?_
    rw [product, exact, Nat.cast_one]
    ring

/-- The exact line and the multiply-accumulate differ by three roundings at most: of the fraction `x`, of the product and of the sum,
where the height of the segment is exact and at most 2. -/
theorem Segment.mac_error (h : Segment lo hi) (exact : toUnits (fsub hi lo) = toUnits hi - toUnits lo)
    (low : valueOf hi - valueOf lo ≤ 2) (ht : Fraction t) (below : valueOf t < 1) {x : ℚ} (hx : |valueOf t - x| ≤ 1 / 2 ^ 25)
    (fused : Bool) :
    |valueOf (mac fused t lo hi) - (valueOf lo + x * (valueOf hi - valueOf lo))| ≤ 1 / 2 ^ 21 + 1 / 2 ^ 23 := by
  obtain ⟨-, height0, -⟩ := h.height
  obtain ⟨-, product0, productLe⟩ := h.product ht
  obtain ⟨ht0, -⟩ := ht.units
  have height : valueOf (fsub hi lo) = valueOf hi - valueOf lo := by
    rw [valueOf, exact, Int.cast_sub, sub_div]
    rfl
  have rise : 0 ≤ valueOf hi - valueOf lo := by rw [← height]; exact valueOf_nonneg.2 height0
  have upper : valueOf hi ≤ 15 := by
    refine (valueOf_le_valueOf.2 h.bounded).trans_eq ?_
    rw [valueOf, show toUnits fifteen = 15 * 2 ^ 149 by decide]
    norm_num
  have t0 : 0 ≤ valueOf t := valueOf_nonneg.2 ht0
  have product : valueOf t * (valueOf hi - valueOf lo) ≤ valueOf hi - valueOf lo := mul_le_of_le_one_left rise below.le
  have fraction : |valueOf t * (valueOf hi - valueOf lo) - x * (valueOf hi - valueOf lo)| ≤ 1 / 2 ^ 24 := by
    rw [← sub_mul, abs_mul, abs_of_nonneg rise]
    calc _ ≤ 1 / 2 ^ 25 * (2 : ℚ) := mul_le_mul hx low rise (by positivity)
      _ = 1 / 2 ^ 24 := by norm_num
  rw [abs_le] at fraction
  obtain ⟨fraction1, fraction2⟩ := fraction
  cases fused with
  | true =>
    have sum := fma_error ht0 height0 h.nonneg (by rw [height]; linarith)
    rw [height, abs_le] at sum
    obtain ⟨sum1, sum2⟩ := sum
    rw [mac, if_pos rfl, abs_le]
    constructor <;> linarith
  | false =>
    have product' := fmul_error ht0 height0 (by
      rw [height]
      calc valueOf t * (valueOf hi - valueOf lo) ≤ valueOf t * 2 := mul_le_mul_of_nonneg_left low t0
        _ < 2 := by linarith)
    have sum := fadd_error h.nonneg product0 (by
      have := valueOf_le_valueOf.2 productLe
      linarith)
    rw [height, abs_le] at product'
    rw [abs_le] at sum
    obtain ⟨sum1, sum2⟩ := sum
    obtain ⟨product1, product2⟩ := product'
    rw [mac, if_neg Bool.false_ne_true, abs_le]
    constructor <;> linarith

end segment

/-! ### The tables of a configuration -/

section table
variable {c : Config} {p : Profile} {raw raw' : Raw} {i j : Nat} {lo hi lo' hi' : Point}

/-- Neither raw points nor velocities fall with their index (R7). -/
theorem table_mono {a b : Point} (ha : romRead c p i = some a) (hb : romRead c p j = some b) (h : i ≤ j) :
    a.raw ≤ b.raw ∧ toUnits a.vel ≤ toUnits b.vel := by
  rcases h.eq_or_lt with rfl | lt
  · obtain rfl := Option.some.inj (ha.symm.trans hb)
    exact ⟨BitVec.le_refl _, le_rfl⟩
  · exact ⟨BitVec.le_of_lt (table_raw_lt c p ha hb lt), table_vel_le c p ha hb lt⟩

/-- A point's index lies inside the table (R64). -/
theorem index_lt_size {a : Point} (ha : romRead c p i = some a) : i < p.size := by
  rw [← table_length c p]
  exact (List.getElem?_eq_some_iff.1 ha).1

/-- Neighbours in a table bound a segment (R7). -/
theorem segment_of_romRead (hlo : romRead c p i = some lo) (hhi : romRead c p (i + 1) = some hi) : Segment lo.vel hi.vel where
  finite := (table_vel_ok c p hlo).1
  finiteUpper := (table_vel_ok c p hhi).1
  nonneg := (table_vel_ok c p hlo).2
  rises := table_vel_le c p hlo hhi (by omega)
  bounded := table_vel_le_ceiling c p hhi

/-- The fraction of a raw value in a bracket, as the engine computes it (R191). -/
def fraction (raw : Raw) (lo hi : Point) : F32 :=
  fdiv (i2f (raw.toNat - lo.raw.toNat : Nat)) (i2f (hi.raw.toNat - lo.raw.toNat : Nat))

/-- The bounds of the numerator and the divisor of a fraction (R192). -/
theorem fraction_bounds (h1 : lo.raw < raw) (h2 : raw ≤ hi.raw) : 1 ≤ raw.toNat - lo.raw.toNat ∧
    raw.toNat - lo.raw.toNat ≤ hi.raw.toNat - lo.raw.toNat ∧ hi.raw.toNat - lo.raw.toNat ≤ 4095 := by
  have := hi.raw.isLt
  bv_omega

/-- A raw value in a bracket has a fraction (R192). -/
theorem fraction_ok (h1 : lo.raw < raw) (h2 : raw ≤ hi.raw) : Fraction (fraction raw lo hi) := by
  obtain ⟨b1, b2, b3⟩ := fraction_bounds h1 h2
  obtain ⟨plain, atMostOne⟩ := fdiv_plain b1 b2 b3
  exact ⟨plain, atMostOne⟩

/-- At the upper point the fraction is 1.0 (R192, R193). -/
theorem fraction_upper (h1 : lo.raw < hi.raw) : fraction hi.raw lo hi = 0x3F800000#32 := by
  obtain ⟨b1, b2, b3⟩ := fraction_bounds h1 (BitVec.le_refl _)
  exact (fraction_eq_one_iff b1 b2 b3).2 rfl

/-- Below its upper point a fraction is within `2 ^ -25` of the exact one. -/
theorem fraction_error (h1 : lo.raw < raw) (h2 : raw < hi.raw) : |valueOf (fraction raw lo hi) -
    ((raw.toNat : ℚ) - lo.raw.toNat) / ((hi.raw.toNat : ℚ) - lo.raw.toNat)| ≤ 1 / 2 ^ 25 := by
  obtain ⟨-, -, b3⟩ := fraction_bounds h1 (BitVec.le_of_lt h2)
  rw [← Nat.cast_sub (by bv_omega), ← Nat.cast_sub (by bv_omega)]
  exact fdiv_error (by bv_omega) b3

/-- A greater raw value has no smaller fraction. -/
theorem fraction_mono (h1 : lo.raw < raw) (h : raw ≤ raw') (h2 : raw' ≤ hi.raw) :
    toUnits (fraction raw lo hi) ≤ toUnits (fraction raw' lo hi) := by
  have le : raw.toNat - lo.raw.toNat ≤ raw'.toNat - lo.raw.toNat := by bv_omega
  obtain ⟨b1, b2, b3⟩ := fraction_bounds (lo := lo) (raw := raw') (by bv_omega) h2
  have plain := (fraction_ok (lo := lo) (raw := raw) (by bv_omega) (by bv_omega : raw ≤ hi.raw)).plain
  have plain' := (fraction_ok (lo := lo) (raw := raw') (by bv_omega) h2).plain
  rw [plain.toUnits, plain'.toUnits]
  refine Int.ofNat_le.2 (magUnits_mono binary32 plain'.lt ?_)
  rw [fraction, fraction, magBits_fraction (le.trans b2) b3, magBits_fraction b2 b3]
  have scale : 0 < (hi.raw.toNat - lo.raw.toNat) * one32 := Nat.mul_pos (by omega) (by decide)
  exact roundMag_mono binary32 scale scale
    (Nat.mul_le_mul_right _ (Nat.mul_le_mul_right _ (Nat.mul_le_mul_right _ le)))

/-- In a bracket below the last point the engine gives the multiply-accumulate at its fraction (R191). -/
theorem interp_eq_mac (hlo : romRead c p i = some lo) (hhi : romRead c p (i + 1) = some hi) (h1 : lo.raw < raw)
    (h2 : raw ≤ hi.raw) (h3 : raw < 3686#12) :
    interp c p raw = some (mac c.macFused (fraction raw lo hi) lo.vel hi.vel) := by
  have lower : lo.raw.toNat ≤ raw.toNat := by bv_omega
  have upper : lo.raw.toNat ≤ hi.raw.toNat := by bv_omega
  rw [interp_bracket c p hlo hhi h1 h2 h3, interpolate_eq_mac, fraction, Int.ofNat_sub lower, Int.ofNat_sub upper]

end table

/-- Below its upper point a fraction is worth less than 1 (R192). -/
theorem fraction_lt_one {raw : Raw} {lo hi : Point} (h1 : lo.raw < raw) (h2 : raw < hi.raw) :
    valueOf (fraction raw lo hi) < 1 := by
  obtain ⟨b1, b2, b3⟩ := fraction_bounds h1 (BitVec.le_of_lt h2)
  obtain ⟨-, -, atMostOne, one⟩ := fractionInUnitInterval _ _ b1 b2 b3
  refine lt_of_le_of_ne atMostOne fun equal => ?_
  have unit : valueOf 0x3F800000#32 = 1 := by
    rw [valueOf, show toUnits 0x3F800000#32 = 2 ^ 149 by decide, Int.cast_pow, Int.cast_ofNat, div_self (by positivity)]
  have plain := (fraction_ok h1 (BitVec.le_of_lt h2)).plain
  have upper := one.1 (plain.eq_of_toUnits ⟨rfl, rfl⟩ (valueOf_eq_valueOf.1 (equal.trans unit.symm)))
  bv_omega

/-- Settles O14: the scan finds a bracket, and there is no other. -/
theorem interpOnBracket : Obligations.InterpOnBracket := by
  unfold Obligations.InterpOnBracket
  intro s raw ready h1 h2
  refine ⟨?found, fun i lo hi hlo hhi above upTo => ?value⟩
  case found =>
    obtain ⟨lo, hi, hlo, hhi, above, upTo⟩ := bracket_found s.cfg s.range (raw := raw) h1 h2
    exact ⟨_, lo, hi, index_lt_size hhi, hlo, hhi, above, upTo⟩
  case value => exact exec_interp_of_ready ready (interp_bracket s.cfg s.range hlo hhi above upTo h2)

end Sys2Proof.Machine
end

