-- ==== Sys2Proof/Proofs/DefaultTables.lean ====
section
/-! The default tables (20_memory.md R62, R63): what interpolation on them gives at a table point, in what order, and how accurately
(43_conversion.md R193, R196). -/

namespace Sys2Proof.Machine

/-- A raw value at an interior point lies below the last point (R7). -/
theorem raw_lt_last {c : Config} {p : Profile} {k : Nat} {a : Point} (ha : romRead c p k = some a) (hk : k < p.size - 1) :
    a.raw < 3686#12 := table_raw_lt c p ha (romRead_last c p) hk

/-- A point that is not below the last raw value is the last point (R7). -/
theorem eq_last {c : Config} {p : Profile} {k : Nat} {a : Point} (ha : romRead c p k = some a) (h : ¬ a.raw < 3686#12) :
    a = ⟨3686#12, p.ceiling⟩ := by
  have inside := index_lt_size ha
  have last : k = p.size - 1 := by
    by_contra hne
    exact h (raw_lt_last ha (by omega))
  rw [last] at ha
  exact Option.some.inj (ha.symm.trans (romRead_last c p))

/-- At an interior point the engine takes the bracket below, with the fraction 1.0 (R193). -/
theorem interp_point {c : Config} {p : Profile} {k : Nat} {lo hi : Point} (hlo : romRead c p k = some lo)
    (hhi : romRead c p (k + 1) = some hi) (below : hi.raw < 3686#12) :
    interp c p hi.raw = some (mac c.macFused 0x3F800000#32 lo.vel hi.vel) := by
  have rise := table_raw_lt c p hlo hhi (Nat.lt_succ_self k)
  rw [interp_eq_mac hlo hhi rise (BitVec.le_refl _) below, fraction_upper rise]

/-- The default configuration under either setting of `MAC_FUSED`. -/
abbrev defaultWith (fused : Bool) : Config := { defaultConfig with macFused := fused }

/-- What the bits of two neighbours of a default table give: an exact height of at most 2.0, and an upper velocity without the minus
sign. -/
abbrev Exact (a b : Point) : Prop :=
  toUnits (fsub b.vel a.vel) = toUnits b.vel - toUnits a.vel ∧ toUnits b.vel - toUnits a.vel ≤ toUnits 0x40000000#32 ∧
    signBit b.vel = false

/-- The neighbours of both default tables have these bits. -/
theorem default_exact {p : Profile} {k : Nat} {lo hi : Point} (hlo : romRead defaultConfig p k = some lo)
    (hhi : romRead defaultConfig p (k + 1) = some hi) : Exact lo hi := by
  have neighbours : (defaultConfig.table p).IsChain Exact := by cases p <;> decide
  obtain ⟨-, rfl⟩ := List.getElem?_eq_some_iff.1 hlo
  obtain ⟨inside, rfl⟩ := List.getElem?_eq_some_iff.1 hhi
  exact neighbours.getElem k inside

section neighbours
variable {p : Profile} {k : Nat} {lo hi : Point} (hlo : romRead defaultConfig p k = some lo)
  (hhi : romRead defaultConfig p (k + 1) = some hi) (fused : Bool)
include hlo hhi

/-- At every point of a default table but the first the engine gives the point's own velocity (R193). -/
theorem default_interp_point : interp (defaultWith fused) p hi.raw = some hi.vel := by
  by_cases below : hi.raw < 3686#12
  · have value : interp (defaultWith fused) p hi.raw = some (mac fused 0x3F800000#32 lo.vel hi.vel) :=
      interp_point hlo hhi below
    have segment := segment_of_romRead hlo hhi
    obtain ⟨height, -, sign⟩ := default_exact hlo hhi
    have plain : Plain hi.vel := ⟨segment.finiteUpper, sign⟩
    rw [value, Plain.eq_of_toUnits (interp_plain _ _ _ value) plain (segment.mac_one height fused)]
  · rw [eq_last hhi below]
    exact interp_ceiling (defaultWith fused) p (BitVec.le_refl _)

/-- In a bracket of a default table the engine does not exceed the upper velocity. -/
theorem default_interp_le {raw : Raw} {v : F32} (h1 : lo.raw < raw) (h2 : raw ≤ hi.raw) (h3 : raw < 3686#12)
    (value : interp (defaultWith fused) p raw = some v) : toUnits v ≤ toUnits hi.vel := by
  have segment := segment_of_romRead hlo hhi
  obtain ⟨height, -⟩ := default_exact hlo hhi
  have one : Fraction 0x3F800000#32 := ⟨⟨rfl, rfl⟩, by decide⟩
  have ok := fraction_ok h1 h2
  have computed : interp (defaultWith fused) p raw = some (mac fused (fraction raw lo hi) lo.vel hi.vel) :=
    interp_eq_mac hlo hhi h1 h2 h3
  obtain rfl := Option.some.inj (computed.symm.trans value)
  rw [← segment.mac_one height fused]
  refine segment.mac_mono ok one ?_ fused
  rw [show toUnits 0x3F800000#32 = one32 by decide]
  exact ok.units.2

end neighbours

/-- Settles O16: the bracket below has the point as its upper end, where the fraction is 1.0, and in a default table the height is exact. -/
theorem tieTakesBracketBelow : Obligations.TieTakesBracketBelow := by
  unfold Obligations.TieTakesBracketBelow
  refine ⟨fun c p k lo pt hk hlo hpt => ⟨?bracket, ?value⟩, fun fused p k pt hk0 hk hpt => ?default⟩
  case bracket => exact bracket_unique c p hlo hpt (table_raw_lt c p hlo hpt (Nat.lt_succ_self k)) (BitVec.le_refl _)
  case value => exact interp_point hlo hpt (raw_lt_last hpt hk)
  case default =>
    obtain ⟨j, rfl⟩ := Nat.exists_eq_succ_of_ne_zero hk0.ne'
    obtain ⟨lo, hlo⟩ := romRead_isSome defaultConfig p (k := j) (by omega)
    exact default_interp_point hlo hpt fused

/-- Settles O17: the results rise with the fraction within a bracket, and lie between the velocities of its ends. -/
theorem defaultResultsNonDecreasing : Obligations.DefaultResultsNonDecreasing := by
  unfold Obligations.DefaultResultsNonDecreasing
  intro fused p raw raw' v v' le hv hv'
  rw [valueOf_le_valueOf]
  by_cases floor : raw ≤ 409#12
  · rw [interp_floor _ p floor] at hv
    obtain rfl := Option.some.inj hv
    rw [(interp_plain _ _ _ hv').toUnits]
    exact Int.natCast_nonneg _
  by_cases ceiling : 3686#12 ≤ raw
  · rw [interp_ceiling _ p ceiling] at hv
    rw [interp_ceiling _ p (BitVec.le_trans ceiling le)] at hv'
    rw [← Option.some.inj hv, Option.some.inj hv']
  obtain ⟨lo, hi, hlo, hhi, above, upTo⟩ := bracket_found defaultConfig p (raw := raw) (by bv_omega) (by bv_omega)
  have atMostUpper := default_interp_le hlo hhi fused above upTo (by bv_omega) hv
  by_cases ceiling' : 3686#12 ≤ raw'
  · rw [interp_ceiling _ p ceiling'] at hv'
    rw [← Option.some.inj hv']
    have inside := index_lt_size hhi
    exact atMostUpper.trans (table_mono hhi (romRead_last defaultConfig p) (by omega)).2
  obtain ⟨lo', hi', hlo', hhi', above', upTo'⟩ := bracket_found defaultConfig p (raw := raw') (by bv_omega) (by bv_omega)
  have computed' := interp_eq_mac (c := defaultWith fused) hlo' hhi' above' upTo' (by bv_omega)
  obtain rfl := Option.some.inj (computed'.symm.trans hv')
  have segment' := segment_of_romRead hlo' hhi'
  generalize bracket raw (defaultConfig.table p) = i at *
  generalize bracket raw' (defaultConfig.table p) = i' at *
  rcases Nat.lt_trichotomy i i' with before | rfl | after
  · calc toUnits v ≤ toUnits hi.vel := atMostUpper
      _ ≤ toUnits lo'.vel := (table_mono hhi hlo' before).2
      _ ≤ _ := segment'.le_mac (fraction_ok above' upTo') fused
  · obtain rfl := Option.some.inj (hlo.symm.trans hlo')
    obtain rfl := Option.some.inj (hhi.symm.trans hhi')
    have computed := interp_eq_mac (c := defaultWith fused) hlo hhi above upTo (by bv_omega)
    obtain rfl := Option.some.inj (computed.symm.trans hv)
    exact segment'.mac_mono (fraction_ok above upTo) (fraction_ok above' upTo') (fraction_mono above le upTo') fused
  · have apart := (table_mono hhi' hlo after).1
    bv_omega

/-- Settles O18: three roundings, of the fraction, the product and the sum; at the upper point there is no error. -/
theorem defaultResultsAccurate : Obligations.DefaultResultsAccurate := by
  unfold Obligations.DefaultResultsAccurate
  intro fused p raw i lo hi v hlo hhi h1 h2 hv
  have wide : (0 : ℚ) < (hi.raw.toNat : ℚ) - lo.raw.toNat := by
    have := table_raw_lt defaultConfig p hlo hhi (Nat.lt_succ_self i)
    have : lo.raw.toNat < hi.raw.toNat := by bv_omega
    rw [sub_pos]
    exact_mod_cast this
  by_cases upper : raw = hi.raw
  · rw [upper] at hv ⊢
    rw [default_interp_point hlo hhi fused] at hv
    rw [← Option.some.inj hv, div_self wide.ne', one_mul, add_sub_cancel, sub_self, abs_zero]
    norm_num
  · have below : raw < hi.raw := by bv_omega
    obtain ⟨height, units, -⟩ := default_exact hlo hhi
    have last := (table_mono hhi (romRead_last defaultConfig p) (by have := index_lt_size hhi; omega)).1
    have computed := interp_eq_mac (c := defaultWith fused) hlo hhi h1 h2 (by bv_omega)
    obtain rfl := Option.some.inj (computed.symm.trans hv)
    have low : valueOf hi.vel - valueOf lo.vel ≤ 2 := by
      rw [valueOf, valueOf, ← sub_div, div_le_iff₀ (by positivity), ← Int.cast_sub]
      rw [show toUnits 0x40000000#32 = 2 * 2 ^ 149 by decide] at units
      exact (Int.cast_le.2 units).trans_eq (by rw [Int.cast_mul, Int.cast_pow, Int.cast_ofNat])
    have error := (segment_of_romRead hlo hhi).mac_error height low (fraction_ok h1 h2) (fraction_lt_one h1 below)
      (fraction_error h1 below) fused
    exact lt_of_le_of_lt error (by norm_num)

end Sys2Proof.Machine
end
